-- ==== Sys2Proof/Word.lean ====
section
/-! DEFINITION. The word types of the engine and the plainest arithmetic on them. -/

namespace Sys2Proof

/-- One byte of a buffer (spec/20_memory.md R50). -/
abbrev Byte := BitVec 8

/-- One command word, 128 bits (spec/30_encoding.md R70). -/
abbrev CmdWord := BitVec 128

/-- `clamp(x, lo, hi)` of spec/00_scope.md R10: `lo` below the range, `hi` above it, else `x`. -/
def clampInt (x lo hi : Int) : Int :=
  if x < lo then lo else if hi < x then hi else x

end Sys2Proof
end

