-- ==== Sys2Proof/Config.lean ====
section
/-! DEFINITION. What the spec fixes once for every engine (R8's fixed parameters, R38's record kinds)
and what the builder of one engine fixes (the OPEN parameters `PAYLOAD_OFF`, `IDTAB`, `CTRL_ID`,
`ENGINE_ID`). The source's literals are unaudited (UNVERIFIED, log entry 8). -/

namespace Sys2Proof

/-- The 13 telemetry record kinds, in the order of their numbers 0 to 12 (spec/10_state.md R38). -/
inductive Kind where
  | ctrl | power | ac | status | wireless | temp | lifeA | lifeB | lifeC | cfgA | cfgB | comm | baud
deriving DecidableEq, Repr

namespace Config

/-- `CB_SIZE` (R8): bytes of the CAN payload buffer. -/
def cbSize : Nat := 8

/-- `RXB_SIZE` (R8): bytes of the scanner's receive buffer, 255 + 6. -/
def rxbSize : Nat := 261

/-- `WB_SIZE` (R8): bytes of the work buffer. -/
def wbSize : Nat := 256

/-- `BF_MAXLEN` (R8): the longest legal bit-field. -/
def bfMaxLen : Nat := 64

/-- `BF_TESTED_MAXLEN` (R8): the longest bit-field the source's own property covers. -/
def bfTestedMaxLen : Nat := 57

/-- `CRC_POLY` (R8). -/
def crcPoly : BitVec 16 := 0xA001#16

/-- `CRC_SEED` (R8). -/
def crcSeed : BitVec 16 := 0xFFFF#16

/-- `RSP_CMD_IDX` (R8): the index of the command byte in a response frame. -/
def rspCmdIdx : Nat := 4

end Config

/-- One entry `(kind, id, mask, minlen)` of the lookup table `IDTAB` (spec/44_can.md R190). -/
structure IdEntry where
  kind   : Kind
  id     : BitVec 11
  mask   : BitVec 11
  minlen : Nat
deriving DecidableEq, Repr

/-- The OPEN parameters of R8. They are arguments of the model: every rule holds for every value
that meets `Params.wf`. No operation changes them (R43, R257). -/
structure Params where
  /-- `PAYLOAD_OFF`: index of the first payload byte of a response frame. -/
  payloadOff : Nat
  /-- `IDTAB`: the ordered identifier table. -/
  idTab : List IdEntry
  /-- `CTRL_ID`: the identifier of the outgoing control frame. -/
  ctrlId : BitVec 11
  /-- `ENGINE_ID`: the constant that `RDR 0` reads. -/
  engineId : BitVec 64
deriving DecidableEq, Repr

/-- An entry meets R8: `id & ~mask = 0` and `minlen` in 0..8 (kind and widths by its type). -/
abbrev IdEntry.wf (e : IdEntry) : Prop := e.id &&& ~~~e.mask = 0#11 ∧ e.minlen ≤ 8

/-- The constraints R8 puts on the OPEN parameters. -/
abbrev Params.wf (p : Params) : Prop :=
  5 ≤ p.payloadOff ∧ p.payloadOff ≤ 239 ∧ ∀ e ∈ p.idTab, e.wf

/-- The values spec/92_eei_decisions.md and spec/95_test_vectors.md name for the examples; the
identifiers are invented there. DESIGN CHOICE (unsafe, log entry 3): `State.reset` carries them. -/
def Params.sample : Params where
  payloadOff := 5
  idTab := [⟨.ctrl, 0x190#11, 0x7FF#11, 8⟩, ⟨.power, 0x300#11, 0x7F0#11, 5⟩,
    ⟨.status, 0x310#11, 0x7F0#11, 4⟩]
  ctrlId := 0x190#11
  engineId := 0#64

end Sys2Proof
end

