-- ==== Sys2Proof/Syntax.lean ====
section
/-! DEFINITION. The 29 operations of spec/30_encoding.md R78, one constructor per row of
spec/opcode_table.json. A constructor carries exactly the command-word fields its operation reads
(R71, R73), with buffer numbers, record kinds, register numbers and word indices already turned
into names; a number the spec reserves stays beside them, since its use is a fault the engine
reports (R80), not a word it cannot read. -/

namespace Sys2Proof

/-- The three buffers (spec/20_memory.md R50). -/
inductive Buf where
  | wb | rxb | cb
deriving DecidableEq, Repr

/-- The registers of RDR, in the order of their numbers 0 to 10 (spec/10_state.md R41). -/
inductive Reg where
  | id | esr | evt | crc | sum | fstat | cmdf | cmdv | cmdi | canhdr | tvalid
deriving DecidableEq, Repr

/-- The ten payload words of a response, in the order of their indices 0 to 9
(spec/43_framer.md R166). -/
inductive BmuWord where
  | voltage | current | soc | status | chargeTime | dischargeTime | temp | soh | remainCapacity
  | remainEnergy
deriving DecidableEq, Repr

/-- A selecting field of `w` bits: one of the things it can name, or a reserved value (R80). -/
inductive Sel (α : Type) (w : Nat) where
  | named (x : α)
  | reserved (v : BitVec w)
deriving DecidableEq, Repr

/-- `sel` as a buffer number. -/
abbrev BufSel := Sel Buf 8

/-- `sel` as a record kind (TFLD). -/
abbrev KindSel := Sel Kind 8

/-- `a` as a register number (RDR). -/
abbrev RegSel := Sel Reg 32

/-- `a` as a word index (FWORD). -/
abbrev WordSel := Sel BmuWord 32

/-- The operations. `a` is an index, offset or start bit, `n` a count or length (R73). -/
inductive Instr where
  /-- NOP, 0x00 (R215). -/
  | nop
  /-- SRST, 0x01 (R216). -/
  | srst
  /-- RDR, 0x02 (R218). -/
  | rdr (reg : RegSel)
  /-- ECLR, 0x03 (R219). -/
  | eclr (mask : BitVec 16)
  /-- LDB, 0x10 (R211). -/
  | ldb (sel : BufSel) (a : BitVec 32)
  /-- STB, 0x11 (R212). -/
  | stb (sel : BufSel) (a : BitVec 32) (b : Byte)
  /-- CRCINIT, 0x20 (R118). -/
  | crcinit
  /-- CRCUPD, 0x21 (R120). -/
  | crcupd (b : Byte)
  /-- CRCBUF, 0x22 (R122). -/
  | crcbuf (sel : BufSel) (a : BitVec 32) (n : BitVec 16)
  /-- CRCAPP, 0x23 (R124). -/
  | crcapp (sel : BufSel) (a : BitVec 32) (n : BitVec 16)
  /-- CRCCHK, 0x24 (R126). -/
  | crcchk (sel : BufSel) (a : BitVec 32) (n : BitVec 16)
  /-- SUMINIT, 0x30 (R137). -/
  | suminit
  /-- SUMUPD, 0x31 (R138). -/
  | sumupd (b : Byte)
  /-- SUMBUF, 0x32 (R140). -/
  | sumbuf (sel : BufSel) (a : BitVec 32) (n : BitVec 16)
  /-- BFGET, 0x40 (R104). -/
  | bfget (sel : BufSel) (a : BitVec 32) (n : BitVec 16)
  /-- BFSET, 0x41 (R106). -/
  | bfset (sel : BufSel) (a : BitVec 32) (n : BitVec 16) (d : BitVec 64)
  /-- FFLUSH, 0x50 (R146). -/
  | fflush
  /-- FREQ, 0x51 (R148). -/
  | freq (addr kind1 kind2 : Byte)
  /-- FPUSH, 0x52 (R150). -/
  | fpush (b : Byte)
  /-- FDEC, 0x53 (R160). -/
  | fdec (sel : BufSel) (a : BitVec 32) (n : BitVec 16)
  /-- FWORD, 0x54 (R168). -/
  | fword (k : WordSel)
  /-- CMDSET, 0x60 (R176). -/
  | cmdset (v c : BitVec 32) (flags : BitVec 11)
  /-- CENC, 0x61 (R179). -/
  | cenc
  /-- CENCOFF, 0x62 (R184). -/
  | cencoff
  /-- CLD, 0x63 (R186). -/
  | cld (id : BitVec 32) (dlc : BitVec 16) (payload : BitVec 64)
  /-- CRD, 0x64 (R188). -/
  | crd
  /-- CDEC, 0x65 (R192). -/
  | cdec
  /-- TFLD, 0x66 (R196). -/
  | tfld (kind : KindSel) (a : BitVec 32) (n : BitVec 16)
  /-- TACK, 0x67 (R198). -/
  | tack
deriving DecidableEq, Repr

end Sys2Proof
end

