-- ==== Sys2Proof/WellFormed.lean ====
section
/-! DEFINITION. Which terms of `Instr` stand for a command word: a reserved value in a selecting
field is one the spec does reserve (spec/30_encoding.md R80); a buffer, kind, register or word the
spec names is written by its name. Every other field is of the exact width R73 reads, so it needs
no check. -/

namespace Sys2Proof

/-- A reserved value lies at or above the first reserved number. -/
def Sel.wf {α : Type} {w : Nat} (first : Nat) : Sel α w → Bool
  | .named _ => true
  | .reserved v => decide (first ≤ v.toNat)

/-- `sel ≥ 3` is reserved in a buffer operation (R80). -/
def BufSel.wf (x : BufSel) : Bool := Sel.wf 3 x

/-- `sel ≥ 13` is reserved in TFLD (R80). -/
def KindSel.wf (x : KindSel) : Bool := Sel.wf 13 x

/-- `a ≥ 11` is reserved in RDR (R80). -/
def RegSel.wf (x : RegSel) : Bool := Sel.wf 11 x

/-- `a ≥ 10` is reserved in FWORD (R80). -/
def WordSel.wf (x : WordSel) : Bool := Sel.wf 10 x

/-- The well-formed operations. -/
def Instr.wf : Instr → Bool
  | .nop => true
  | .srst => true
  | .rdr reg => RegSel.wf reg
  | .eclr _ => true
  | .ldb sel _ => BufSel.wf sel
  | .stb sel _ _ => BufSel.wf sel
  | .crcinit => true
  | .crcupd _ => true
  | .crcbuf sel _ _ => BufSel.wf sel
  | .crcapp sel _ _ => BufSel.wf sel
  | .crcchk sel _ _ => BufSel.wf sel
  | .suminit => true
  | .sumupd _ => true
  | .sumbuf sel _ _ => BufSel.wf sel
  | .bfget sel _ _ => BufSel.wf sel
  | .bfset sel _ _ _ => BufSel.wf sel
  | .fflush => true
  | .freq _ _ _ => true
  | .fpush _ => true
  | .fdec sel _ _ => BufSel.wf sel
  | .fword k => WordSel.wf k
  | .cmdset _ _ _ => true
  | .cenc => true
  | .cencoff => true
  | .cld _ _ _ => true
  | .crd => true
  | .cdec => true
  | .tfld kind _ _ => KindSel.wf kind
  | .tack => true

end Sys2Proof
end

