-- ==== Sys2Proof/Decode.lean ====
section
/-! DEFINITION. The decoder of a command word and, after it, the encoder, both from the tables of
spec/30_encoding.md (R70 layout, R73 operands, R78 opcodes) and the numbers of spec/20_memory.md R50
(buffers), spec/10_state.md R38 (kinds) and R41 (registers), spec/43_framer.md R166 (words). -/

namespace Sys2Proof

/-! ## The fields of a command word (R70) -/

/-- `op`, bits 127:120. -/
def opField (w : CmdWord) : BitVec 8 := w.extractLsb' 120 8

/-- `sel`, bits 119:112. -/
def selField (w : CmdWord) : BitVec 8 := w.extractLsb' 112 8

/-- `n`, bits 111:96. -/
def nField (w : CmdWord) : BitVec 16 := w.extractLsb' 96 16

/-- `a`, bits 95:64. -/
def aField (w : CmdWord) : BitVec 32 := w.extractLsb' 64 32

/-- `d`, bits 63:0. -/
def dField (w : CmdWord) : BitVec 64 := w.extractLsb' 0 64

/-- `d[7:0]`, a byte operand (R73). -/
def dByte (w : CmdWord) : Byte := (dField w).extractLsb' 0 8

/-- The command word with the given fields. -/
def mkWord (op sel : BitVec 8) (n : BitVec 16) (a : BitVec 32) (d : BitVec 64) : CmdWord :=
  op ++ sel ++ n ++ a ++ d

/-! ## The numbers of the things a field names -/

/-- Buffer numbers (R50). -/
def Buf.ofNum : Nat → Option Buf
  | 0 => some .wb
  | 1 => some .rxb
  | 2 => some .cb
  | _ => none

/-- Buffer numbers (R50). -/
def Buf.num : Buf → Nat
  | .wb => 0
  | .rxb => 1
  | .cb => 2

/-- Record kind numbers (R38). -/
def Kind.ofNum : Nat → Option Kind
  | 0 => some .ctrl
  | 1 => some .power
  | 2 => some .ac
  | 3 => some .status
  | 4 => some .wireless
  | 5 => some .temp
  | 6 => some .lifeA
  | 7 => some .lifeB
  | 8 => some .lifeC
  | 9 => some .cfgA
  | 10 => some .cfgB
  | 11 => some .comm
  | 12 => some .baud
  | _ => none

/-- Record kind numbers (R38); the number is also the record's place in `TEL`. -/
def Kind.num : Kind → Fin 13
  | .ctrl => 0
  | .power => 1
  | .ac => 2
  | .status => 3
  | .wireless => 4
  | .temp => 5
  | .lifeA => 6
  | .lifeB => 7
  | .lifeC => 8
  | .cfgA => 9
  | .cfgB => 10
  | .comm => 11
  | .baud => 12

/-- Register numbers (R41). -/
def Reg.ofNum : Nat → Option Reg
  | 0 => some .id
  | 1 => some .esr
  | 2 => some .evt
  | 3 => some .crc
  | 4 => some .sum
  | 5 => some .fstat
  | 6 => some .cmdf
  | 7 => some .cmdv
  | 8 => some .cmdi
  | 9 => some .canhdr
  | 10 => some .tvalid
  | _ => none

/-- Register numbers (R41). -/
def Reg.num : Reg → Nat
  | .id => 0
  | .esr => 1
  | .evt => 2
  | .crc => 3
  | .sum => 4
  | .fstat => 5
  | .cmdf => 6
  | .cmdv => 7
  | .cmdi => 8
  | .canhdr => 9
  | .tvalid => 10

/-- Word indices (R166). -/
def BmuWord.ofNum : Nat → Option BmuWord
  | 0 => some .voltage
  | 1 => some .current
  | 2 => some .soc
  | 3 => some .status
  | 4 => some .chargeTime
  | 5 => some .dischargeTime
  | 6 => some .temp
  | 7 => some .soh
  | 8 => some .remainCapacity
  | 9 => some .remainEnergy
  | _ => none

/-- Word indices (R166); the index is also the word's place in `BMW`. -/
def BmuWord.num : BmuWord → Fin 10
  | .voltage => 0
  | .current => 1
  | .soc => 2
  | .status => 3
  | .chargeTime => 4
  | .dischargeTime => 5
  | .temp => 6
  | .soh => 7
  | .remainCapacity => 8
  | .remainEnergy => 9

/-- Read a selecting field: the thing its number names, or the reserved value. -/
def decodeSel {α : Type} {w : Nat} (ofNum : Nat → Option α) (v : BitVec w) : Sel α w :=
  match ofNum v.toNat with
  | some x => .named x
  | none => .reserved v

/-- Write a selecting field. -/
def encodeSel {α : Type} {w : Nat} (num : α → Nat) : Sel α w → BitVec w
  | .named x => BitVec.ofNat w (num x)
  | .reserved v => v

/-! ## Decode -/

/-- Why a word is no operation: its opcode is none of the 29 (R79). -/
inductive DecodeError where
  | illegalOp (op : BitVec 8)
deriving DecidableEq, Repr

/-- `sel` as a buffer. -/
def bufSelOf (w : CmdWord) : BufSel := decodeSel Buf.ofNum (selField w)

/-- The decoder: total, and every word is one of the 29 operations or illegal (R79). -/
def decode (w : CmdWord) : Except DecodeError Instr :=
  match opField w with
  | 0x00#8 => .ok .nop
  | 0x01#8 => .ok .srst
  | 0x02#8 => .ok (.rdr (decodeSel Reg.ofNum (aField w)))
  | 0x03#8 => .ok (.eclr ((dField w).extractLsb' 0 16))
  | 0x10#8 => .ok (.ldb (bufSelOf w) (aField w))
  | 0x11#8 => .ok (.stb (bufSelOf w) (aField w) (dByte w))
  | 0x20#8 => .ok .crcinit
  | 0x21#8 => .ok (.crcupd (dByte w))
  | 0x22#8 => .ok (.crcbuf (bufSelOf w) (aField w) (nField w))
  | 0x23#8 => .ok (.crcapp (bufSelOf w) (aField w) (nField w))
  | 0x24#8 => .ok (.crcchk (bufSelOf w) (aField w) (nField w))
  | 0x30#8 => .ok .suminit
  | 0x31#8 => .ok (.sumupd (dByte w))
  | 0x32#8 => .ok (.sumbuf (bufSelOf w) (aField w) (nField w))
  | 0x40#8 => .ok (.bfget (bufSelOf w) (aField w) (nField w))
  | 0x41#8 => .ok (.bfset (bufSelOf w) (aField w) (nField w) (dField w))
  | 0x50#8 => .ok .fflush
  | 0x51#8 => .ok (.freq ((aField w).extractLsb' 0 8) (dByte w) ((dField w).extractLsb' 8 8))
  | 0x52#8 => .ok (.fpush (dByte w))
  | 0x53#8 => .ok (.fdec (bufSelOf w) (aField w) (nField w))
  | 0x54#8 => .ok (.fword (decodeSel BmuWord.ofNum (aField w)))
  | 0x60#8 => .ok (.cmdset ((dField w).extractLsb' 0 32) ((dField w).extractLsb' 32 32)
      ((nField w).extractLsb' 0 11))
  | 0x61#8 => .ok .cenc
  | 0x62#8 => .ok .cencoff
  | 0x63#8 => .ok (.cld (aField w) (nField w) (dField w))
  | 0x64#8 => .ok .crd
  | 0x65#8 => .ok .cdec
  | 0x66#8 => .ok (.tfld (decodeSel Kind.ofNum (selField w)) (aField w) (nField w))
  | 0x67#8 => .ok .tack
  | op => .error (.illegalOp op)

/-- The host's entry: the operation read from an instruction whose bits are `w`, numbered as
spec/opcode_table.json numbers them, `nbits` of them given and the rest zero. -/
def decodeTableWord (nbits w : Nat) : Option Instr :=
  match decode (BitVec.ofNat 128 (w % 2 ^ nbits)) with
  | .ok i => some i
  | .error _ => none

/-! ## Encode -/

/-- The opcode of each operation (R78). -/
def opcode : Instr → BitVec 8
  | .nop => 0x00#8
  | .srst => 0x01#8
  | .rdr _ => 0x02#8
  | .eclr _ => 0x03#8
  | .ldb _ _ => 0x10#8
  | .stb _ _ _ => 0x11#8
  | .crcinit => 0x20#8
  | .crcupd _ => 0x21#8
  | .crcbuf _ _ _ => 0x22#8
  | .crcapp _ _ _ => 0x23#8
  | .crcchk _ _ _ => 0x24#8
  | .suminit => 0x30#8
  | .sumupd _ => 0x31#8
  | .sumbuf _ _ _ => 0x32#8
  | .bfget _ _ _ => 0x40#8
  | .bfset _ _ _ _ => 0x41#8
  | .fflush => 0x50#8
  | .freq _ _ _ => 0x51#8
  | .fpush _ => 0x52#8
  | .fdec _ _ _ => 0x53#8
  | .fword _ => 0x54#8
  | .cmdset _ _ _ => 0x60#8
  | .cenc => 0x61#8
  | .cencoff => 0x62#8
  | .cld _ _ _ => 0x63#8
  | .crd => 0x64#8
  | .cdec => 0x65#8
  | .tfld _ _ _ => 0x66#8
  | .tack => 0x67#8

/-- A buffer number as the `sel` field. -/
def bufField (sel : BufSel) : BitVec 8 := encodeSel Buf.num sel

/-- A byte operand as the `d` field. -/
def byteField (b : Byte) : BitVec 64 := b.setWidth 64

/-- The command word of an operation; a field the operation does not read is zero (R84). -/
def encode (i : Instr) : CmdWord :=
  match i with
  | .nop => mkWord (opcode i) 0 0 0 0
  | .srst => mkWord (opcode i) 0 0 0 0
  | .rdr reg => mkWord (opcode i) 0 0 (encodeSel Reg.num reg) 0
  | .eclr mask => mkWord (opcode i) 0 0 0 (mask.setWidth 64)
  | .ldb sel a => mkWord (opcode i) (bufField sel) 0 a 0
  | .stb sel a b => mkWord (opcode i) (bufField sel) 0 a (byteField b)
  | .crcinit => mkWord (opcode i) 0 0 0 0
  | .crcupd b => mkWord (opcode i) 0 0 0 (byteField b)
  | .crcbuf sel a n => mkWord (opcode i) (bufField sel) n a 0
  | .crcapp sel a n => mkWord (opcode i) (bufField sel) n a 0
  | .crcchk sel a n => mkWord (opcode i) (bufField sel) n a 0
  | .suminit => mkWord (opcode i) 0 0 0 0
  | .sumupd b => mkWord (opcode i) 0 0 0 (byteField b)
  | .sumbuf sel a n => mkWord (opcode i) (bufField sel) n a 0
  | .bfget sel a n => mkWord (opcode i) (bufField sel) n a 0
  | .bfset sel a n d => mkWord (opcode i) (bufField sel) n a d
  | .fflush => mkWord (opcode i) 0 0 0 0
  | .freq addr kind1 kind2 =>
    mkWord (opcode i) 0 0 (addr.setWidth 32) ((kind2 ++ kind1).setWidth 64)
  | .fpush b => mkWord (opcode i) 0 0 0 (byteField b)
  | .fdec sel a n => mkWord (opcode i) (bufField sel) n a 0
  | .fword k => mkWord (opcode i) 0 0 (encodeSel (fun x => (BmuWord.num x).val) k) 0
  | .cmdset v c flags => mkWord (opcode i) 0 (flags.setWidth 16) 0 (c ++ v)
  | .cenc => mkWord (opcode i) 0 0 0 0
  | .cencoff => mkWord (opcode i) 0 0 0 0
  | .cld id dlc payload => mkWord (opcode i) 0 dlc id payload
  | .crd => mkWord (opcode i) 0 0 0 0
  | .cdec => mkWord (opcode i) 0 0 0 0
  | .tfld kind a n => mkWord (opcode i) (encodeSel (fun x => (Kind.num x).val) kind) n a 0
  | .tack => mkWord (opcode i) 0 0 0 0

end Sys2Proof
end

