-- ==== Sys2Proof/Machine/State.lean ====
section
/-! DEFINITION. The state of the engine: every piece spec/10_state.md R21 lists, and the three pieces
the host's form of a step asks for (the parameters, the command port, the response port). All of it
is plain data. -/

namespace Sys2Proof.Machine

/-- The bytes of one buffer, in ONE canonical form: addresses strictly rising and no entry equal to
what an unlisted address reads as, which is 0x00 (`unlisted`, Machine/Ops.lean). The spec gives WB,
RXB and the record payloads no power-on content (R44, U1); 0x00 is a DESIGN CHOICE (unsafe, log
entry 4). For CB it is the spec's own reset value. -/
abbrev Memory := List Host.Cell

/-- The scanner's states, in the order of their codes 0 to 3 (R28). -/
inductive ScanState where
  | hunt0 | hunt1 | collect | ready
deriving DecidableEq, Repr

/-- One telemetry sub-record: the latched payload and its valid bit (R39). -/
structure TelRecord where
  raw   : Memory
  valid : Bool
deriving DecidableEq, Repr

/-- The faults an operation can END WITH (spec/60_exceptions.md R226, R230). They are outcomes the
engine reports in its response, after which it goes on; they are not stops of the machine. -/
inductive EngFault where
  | illegalOp | operandFault | indexFault
  | feLength | feHeader | feFooter | feCommand | fePayload
  | feMbLen | feCrc
deriving DecidableEq, Repr

/-- The status of a response (R226). -/
inductive Status where
  | ok | empty | busy | ignored
  | raised (f : EngFault)
deriving DecidableEq, Repr

/-- The response word: status `st` and result `r` (R72). -/
structure Response where
  st : Status
  r  : BitVec 64
deriving DecidableEq, Repr

/-- What reaches the engine from outside: a command word on the command port (R20, R70), or the
power-on reset input (R255) with the bytes WB happens to hold after it, index 0 first (R44 leaves
them unspecified, U1 asks for any value). -/
inductive Input where
  | command (w : CmdWord)
  | powerOn (wb : List Byte)
deriving DecidableEq, Repr

/-- Why the machine stops with a fault: it never does. R225 makes the engine total: every operation
ends with a response, and a fault status is an ordinary response (`EngFault`). Nobody raises this
type, and having no constructor is safe. -/
inductive Fault : Type
deriving DecidableEq, Repr

/-- Why the machine has no meaning for an operation. -/
inductive Refusal where
  /-- An operation without a meaning in this model; raised only by an arm of `exec` that has none
  (no arm is such an arm). Safe: nothing is claimed of a refused operation. -/
  | notModelled (mnemonic : String)
deriving DecidableEq, Repr

/-- The state of the engine (R21), and the model's own `par`, `port` and `rsp`. -/
structure State where
  /-- CRC-16/Modbus accumulator (R24). -/
  crc : BitVec 16
  /-- Additive checksum accumulator (R25). -/
  sum : BitVec 8
  /-- Work buffer, 256 bytes (R26). -/
  wb : Memory
  /-- Receive buffer of the scanner, 261 bytes (R27). -/
  rxb : Memory
  /-- Number of valid bytes in RXB (R27). -/
  rxlen : BitVec 9
  /-- Scanner state (R28). -/
  fst : ScanState
  /-- The ten payload words of the last decoded response (R33). -/
  bmw : Vector (BitVec 16) 10
  /-- BMW holds a decoded frame (R33). -/
  bmv : Bool
  /-- CAN payload buffer, 8 bytes (R30). -/
  cb : Memory
  /-- CAN identifier register (R30). -/
  cid : BitVec 11
  /-- Data length code register (R30). -/
  cdlc : BitVec 4
  /-- Voltage demand, signed thousandths (R31). -/
  cmdv : BitVec 32
  /-- Current demand, signed thousandths (R31). -/
  cmdi : BitVec 32
  /-- Command flags: EN, CLR, ST[8:0] (R31). -/
  cmdf : BitVec 11
  /-- Telemetry record file, by kind number (R38, R39). -/
  tel : Vector TelRecord 13
  /-- A sub-record was replaced since the last TACK (R40). -/
  tchg : Bool
  /-- Sticky error status (R32). -/
  esr : BitVec 16
  /-- The MODEL's own: the OPEN parameters, fixed when the engine is built (R43, log entry 2). -/
  par : Params
  /-- The MODEL's own: what the outside still has to present, next first (R20, log entry 1). -/
  port : List Input
  /-- The MODEL's own: the response of the last operation; none before the first (R72, log entry 1). -/
  rsp : Option Response
deriving DecidableEq, Repr

/-- The machine right after a power-on reset (R44, R255), with nothing presented yet. The bytes R44
calls unspecified are 0x00 here (log entry 4) and the parameters are the spec's example values
(log entry 3), both DESIGN CHOICE. -/
def State.reset : State where
  crc := 0xFFFF#16
  sum := 0x00#8
  wb := []
  rxb := []
  rxlen := 0#9
  fst := .hunt0
  bmw := Vector.replicate 10 0#16
  bmv := false
  cb := []
  cid := 0#11
  cdlc := 0#4
  cmdv := 0#32
  cmdi := 0#32
  cmdf := 0#11
  tel := Vector.replicate 13 { raw := [], valid := false }
  tchg := false
  esr := 0x0000#16
  par := Params.sample
  port := []
  rsp := none

/-- What a step or a meaning answers. -/
abbrev Res := Host.Outcome State Fault Refusal

end Sys2Proof.Machine
end

