-- ==== Sys2Proof/Machine/Flags.lean ====
section
/-! DEFINITION. Status codes and the sticky bits of ESR (spec/60_exceptions.md R226, spec/10_state.md
R32), the code of the scanner state (R28), the two level outputs (R42, R235). -/

namespace Sys2Proof.Machine

/-- The status code of a fault (R226). -/
def EngFault.code : EngFault → BitVec 8
  | .illegalOp => 0x10#8
  | .operandFault => 0x11#8
  | .indexFault => 0x12#8
  | .feLength => 0x20#8
  | .feHeader => 0x21#8
  | .feFooter => 0x22#8
  | .feCommand => 0x23#8
  | .fePayload => 0x24#8
  | .feMbLen => 0x28#8
  | .feCrc => 0x29#8

/-- The ESR bit of a fault (R32, R226). -/
def EngFault.esrBit : EngFault → Nat
  | .illegalOp => 0
  | .operandFault => 1
  | .indexFault => 2
  | .feLength => 3
  | .feHeader => 4
  | .feFooter => 5
  | .feCommand => 6
  | .fePayload => 7
  | .feMbLen => 8
  | .feCrc => 9

/-- `E_RESYNC`: the ESR bit of a silent resync (R32, R154). -/
def resyncBit : Nat := 10

/-- The status code of a response (R226). -/
def Status.code : Status → BitVec 8
  | .ok => 0x00#8
  | .empty => 0x01#8
  | .busy => 0x02#8
  | .ignored => 0x03#8
  | .raised f => f.code

/-- Whether a status is one of the faults (R225). -/
def Status.isFault : Status → Bool
  | .raised _ => true
  | _ => false

/-- The 72 bits of a response: `st` in 71:64, `r` in 63:0 (R72). -/
def Response.word (x : Response) : BitVec 72 := x.st.code ++ x.r

/-- ESR with one more sticky bit (R32). -/
def esrWith (bit : Nat) (esr : BitVec 16) : BitVec 16 := esr ||| (1#16 <<< bit)

/-- The 2-bit code of the scanner state (R28). -/
def ScanState.code : ScanState → BitVec 2
  | .hunt0 => 0#2
  | .hunt1 => 1#2
  | .collect => 2#2
  | .ready => 3#2

/-- The level output `frame_ready` (R42, R235). -/
def frameReady (s : State) : Bool := decide (s.fst = .ready)

/-- The level output `tel_changed` (R42, R235). -/
def telChanged (s : State) : Bool := s.tchg

end Sys2Proof.Machine
end

