-- ==== Sys2Proof/Machine/Ops.lean ====
section
/-! DEFINITION. The shared operations: the bytes of a buffer, the bit-field codec's two functions
(spec/40_bitfield.md R100, R101), the two ways an operation ends (`respond`, R72; `raise`, R230), the
power-on reset (R255) and the intake of the command port (R20). -/

namespace Sys2Proof.Machine

/-! ## Bytes of a buffer -/

/-- What an unlisted address reads as. DESIGN CHOICE (unsafe, log entry 4) but for CB, where R44
says 0x00. -/
def unlisted : Byte := 0x00#8

/-- Read byte `j`. -/
def Memory.read : Memory → Nat → Byte
  | [], _ => unlisted
  | (b, w) :: m, j => if b = j then w else Memory.read m j

/-- Drop the entry of address `j`. -/
def Memory.erase : Memory → Nat → Memory
  | [], _ => []
  | (b, w) :: m, j => if b = j then Memory.erase m j else (b, w) :: Memory.erase m j

/-- List address `j`, in its place. -/
def Memory.insert : Memory → Nat → Byte → Memory
  | [], j, v => [(j, v)]
  | (b, w) :: m, j, v =>
    if j < b then (j, v) :: (b, w) :: m else (b, w) :: Memory.insert m j v

/-- Write byte `j`; writing what an unlisted address reads as removes the entry. -/
def Memory.write (m : Memory) (j : Nat) (v : Byte) : Memory :=
  if v = unlisted then Memory.erase m j else Memory.insert (Memory.erase m j) j v

/-- Every listed address is at least `lo`, they rise strictly, and none holds `unlisted`. -/
def Memory.wfFrom : Nat → Memory → Bool
  | _, [] => true
  | lo, (b, w) :: m => decide (lo ≤ b) && decide (w ≠ unlisted) && Memory.wfFrom (b + 1) m

/-- The canonical form. -/
def Memory.wf (m : Memory) : Bool := Memory.wfFrom 0 m

/-- Every listed address is below `size`. -/
def Memory.within : Memory → Nat → Bool
  | [], _ => true
  | (b, _) :: m, size => decide (b < size) && Memory.within m size

/-- The bytes `j .. j+n-1`, index `j` first (`BUF[i..j]` of R12). -/
def Memory.bytes (m : Memory) (j : Nat) : Nat → List Byte
  | 0 => []
  | n + 1 => m.read j :: Memory.bytes m (j + 1) n

/-- Write a byte sequence from index `j` on. -/
def Memory.writeBytes (m : Memory) (j : Nat) : List Byte → Memory
  | [] => m
  | v :: vs => Memory.writeBytes (m.write j v) (j + 1) vs

/-- `LE64(B)`: byte `i` in bits `8i+7 : 8i` (R57). -/
def Memory.le64 (m : Memory) : BitVec 64 :=
  m.read 7 ++ m.read 6 ++ m.read 5 ++ m.read 4 ++ m.read 3 ++ m.read 2 ++ m.read 1 ++ m.read 0

/-! ## The bit-field codec -/

/-- Bit `p` of a buffer: bit `p % 8` of byte `p / 8` (R56). -/
def Memory.bit (m : Memory) (p : Nat) : Bool := (m.read (p / 8)).getLsbD (p % 8)

/-- A byte with its bit `k` replaced. -/
def byteWithBit (v : Byte) (k : Nat) (x : Bool) : Byte :=
  if x then v ||| (1#8 <<< k) else v &&& ~~~(1#8 <<< k)

/-- A buffer with its bit `p` replaced. -/
def Memory.setBit (m : Memory) (p : Nat) (x : Bool) : Memory :=
  m.write (p / 8) (byteWithBit (m.read (p / 8)) (p % 8) x)

/-- `bf_get`: bit `i` of the result is buffer bit `start + i`; the bits from `len` on are zero
(R100). -/
def bfGet (m : Memory) (start : Nat) : Nat → BitVec 64
  | 0 => 0#64
  | len + 1 => bfGet m start len ||| (if m.bit (start + len) then 1#64 <<< len else 0#64)

/-- `bf_set`: buffer bit `start + i` becomes bit `i` of the value; every other bit stays; the value's
bits from `len` on take no part (R101, R102). -/
def bfSet (m : Memory) (start : Nat) : Nat → BitVec 64 → Memory
  | 0, _ => m
  | len + 1, v => (bfSet m start len v).setBit (start + len) (v.getLsbD len)

/-! ## How an operation ends -/

/-- The state with a response in the response port (R72). -/
def State.answer (s : State) (st : Status) (r : BitVec 64) : State :=
  { s with rsp := some { st := st, r := r } }

/-- The state after a fault: its sticky ESR bit and its response, and nothing else (R230). -/
def State.raised (s : State) (f : EngFault) : State :=
  { s with esr := esrWith f.esrBit s.esr, rsp := some { st := .raised f, r := 0#64 } }

/-- `respond(st, r)`: the operation ends with this response (R12, R72). -/
def respond (st : Status) (r : BitVec 64) (s : State) : Res := .next (s.answer st r)

/-- `raise f`: THE ENGINE'S EXCEPTION ENTRY (R230). The fault's ESR bit is set, the response carries
its code and a zero result, and no other state changes: no vector, no saved context, no mode. There
is nothing to return from; the next operation runs as ever (R231). -/
def raise (f : EngFault) (s : State) : Res := .next (s.raised f)

/-! ## Power-on reset and the command port -/

/-- The power-on reset input (R44, R255): every register at its reset value, WB at the bytes given
(U1: any), the unreadable bytes at 0x00 (U1 allows it). The parameters are the engine's build (R43)
and what the outside still has to present is not the engine's. -/
def powerOn (wb : List Byte) (s : State) : State :=
  { State.reset with
    wb := Memory.writeBytes [] 0 (wb.take Config.wbSize), par := s.par, port := s.port }

/-- Take the next thing the outside presents (R20, R63). -/
def nextInput (s : State) : Option (Input × State) :=
  match s.port with
  | [] => none
  | x :: rest => some (x, { s with port := rest })

end Sys2Proof.Machine
end

