-- ==== Sys2Proof/Machine/Operands.lean ====
section
/-! DEFINITION. Operand forms: which buffer a `sel` gives an operation that reads or writes
(spec/20_memory.md R50 to R53, spec/30_encoding.md R80), the readable size (R52), the range tests of
byte ranges and bit-fields (R52, R54, R73: sums without wrap-around). -/

namespace Sys2Proof.Machine

/-- The thing a selecting field names; none is the reserved value that raises OperandFault (R80). -/
def named {α : Type} {w : Nat} : Sel α w → Option α
  | .named x => some x
  | .reserved _ => none

/-- The buffer a write-class operation may write: WB or CB; RXB belongs to the scanner (R53). -/
def writeTarget : BufSel → Option Buf
  | .named .rxb => none
  | .named b => some b
  | .reserved _ => none

/-- The bytes of a buffer. -/
def bufMem (s : State) : Buf → Memory
  | .wb => s.wb
  | .rxb => s.rxb
  | .cb => s.cb

/-- `size(sel)` (R52): all of WB and CB, and of RXB what has been received. -/
def bufSize (s : State) : Buf → Nat
  | .wb => Config.wbSize
  | .rxb => s.rxlen.toNat
  | .cb => Config.cbSize

/-- Replace the bytes of a buffer. -/
def setBuf (s : State) (b : Buf) (m : Memory) : State :=
  match b with
  | .wb => { s with wb := m }
  | .rxb => { s with rxb := m }
  | .cb => { s with cb := m }

/-- Bytes `a .. a+n-1` are in range; an empty range always is (R52). -/
def bytesInRange (size : Nat) (a : BitVec 32) (n : BitVec 16) : Bool :=
  decide (n.toNat = 0 ∨ a.toNat + n.toNat ≤ size)

/-- Bits `a .. a+n-1` of a buffer of `size` bytes are in range; an empty field always is (R52,
R104). -/
def bitsInRange (size : Nat) (a : BitVec 32) (n : BitVec 16) : Bool :=
  decide (n.toNat = 0 ∨ a.toNat + n.toNat ≤ 8 * size)

end Sys2Proof.Machine
end

