-- ==== Sys2Proof/Machine/BitField.lean ====
section
/-! DEFINITION. The bit-field codec's operations (spec/40_bitfield.md); its two functions are `bfGet`
and `bfSet` of Machine/Ops.lean. -/

namespace Sys2Proof.Machine

/-- BFGET (R104). -/
def execBfget (sel : BufSel) (a : BitVec 32) (n : BitVec 16) (s : State) : Res :=
  match named sel with
  | none => raise .operandFault s
  | some b =>
    if Config.bfMaxLen < n.toNat then raise .operandFault s
    else if bitsInRange (bufSize s b) a n then
      respond .ok (bfGet (bufMem s b) a.toNat n.toNat) s
    else raise .indexFault s

/-- BFSET (R106): the bound is tested before any bit is written. -/
def execBfset (sel : BufSel) (a : BitVec 32) (n : BitVec 16) (d : BitVec 64) (s : State) : Res :=
  match writeTarget sel with
  | none => raise .operandFault s
  | some b =>
    if Config.bfMaxLen < n.toNat then raise .operandFault s
    else if bitsInRange (bufSize s b) a n then
      respond .ok 0#64 (setBuf s b (bfSet (bufMem s b) a.toNat n.toNat d))
    else raise .indexFault s

end Sys2Proof.Machine
end

