-- ==== Sys2Proof/Machine/Buffer.lean ====
section
/-! DEFINITION. The byte accesses LDB and STB (spec/45_buffer_system.md). -/

namespace Sys2Proof.Machine

/-- LDB (R211). -/
def execLdb (sel : BufSel) (a : BitVec 32) (s : State) : Res :=
  match named sel with
  | none => raise .operandFault s
  | some b =>
    if bufSize s b ≤ a.toNat then raise .indexFault s
    else respond .ok (((bufMem s b).read a.toNat).setWidth 64) s

/-- STB (R212). -/
def execStb (sel : BufSel) (a : BitVec 32) (v : Byte) (s : State) : Res :=
  match writeTarget sel with
  | none => raise .operandFault s
  | some b =>
    if bufSize s b ≤ a.toNat then raise .indexFault s
    else respond .ok 0#64 (setBuf s b ((bufMem s b).write a.toNat v))

end Sys2Proof.Machine
end

