-- ==== Sys2Proof/Machine/Can.lean ====
section
/-! DEFINITION. The CAN unit (spec/44_can.md): control frame, frame registers, lookup table, telemetry
records. -/

namespace Sys2Proof.Machine

/-- A documented field position: start bit and length (R11). The named ones below are all the spec
gives (R178, R199 to R201); the other records have no layout to name (R202). -/
structure FieldPos where
  start : Nat
  len   : Nat
deriving DecidableEq, Repr

/-- Control frame and K_CTRL: voltage demand (R178, R199). -/
def ctrlVoltage : FieldPos := ⟨0, 20⟩
/-- Control frame and K_CTRL: power enable (R178, R199). -/
def ctrlEnable : FieldPos := ⟨20, 1⟩
/-- Control frame and K_CTRL: clear faults (R178, R199). -/
def ctrlClear : FieldPos := ⟨21, 1⟩
/-- Control frame and K_CTRL: stage enables, powerStage1 lowest (R178, R199). -/
def ctrlStages : FieldPos := ⟨22, 9⟩
/-- K_CTRL: powerStage1 alone (R199). -/
def ctrlStage1 : FieldPos := ⟨22, 1⟩
/-- Control frame and K_CTRL: current demand (R178, R199). -/
def ctrlCurrent : FieldPos := ⟨32, 18⟩
/-- K_POWER: voltage (R200). -/
def powerVoltage : FieldPos := ⟨0, 20⟩
/-- K_POWER: current (R200, C2). -/
def powerCurrent : FieldPos := ⟨20, 18⟩
/-- K_STATUS: state (R201). -/
def statusState : FieldPos := ⟨0, 6⟩

/-- Read a documented field of a payload. -/
def getField (m : Memory) (p : FieldPos) : BitVec 64 := bfGet m p.start p.len

/-- Write a documented field of a payload. -/
def putField (p : FieldPos) (v : BitVec 64) (m : Memory) : Memory := bfSet m p.start p.len v

/-! ## Encode -/

/-- CMDSET (R176): the whole command record in one operation. -/
def execCmdset (v c : BitVec 32) (flags : BitVec 11) (s : State) : Res :=
  respond .ok 0#64 { s with cmdv := v, cmdi := c, cmdf := flags }

/-- A demand compared as a signed integer with its field's bounds (R180). -/
def clampDemand (x : BitVec 32) (hi : Int) : BitVec 64 := BitVec.ofInt 64 (clampInt x.toInt 0 hi)

/-- The clamped voltage demand, at most 2^20 - 1 (R178). -/
def voltageField (s : State) : BitVec 64 := clampDemand s.cmdv 1048575

/-- The clamped current demand, at most 2^18 - 1 (R178). -/
def currentField (s : State) : BitVec 64 := clampDemand s.cmdi 262143

/-- `EN`, bit 0 of CMDF (R31). -/
def enFlag (s : State) : BitVec 1 := s.cmdf.extractLsb' 0 1

/-- `CLR`, bit 1 of CMDF (R31). -/
def clrFlag (s : State) : BitVec 1 := s.cmdf.extractLsb' 1 1

/-- `ST[8:0]`, bits 10:2 of CMDF (R31). -/
def stFlags (s : State) : BitVec 9 := s.cmdf.extractLsb' 2 9

/-- The payload of the control frame with the given enable bit and current, built from eight zero
bytes; voltage, CLR and ST come from the command registers (R178, R179, R181, R184). -/
def controlFrame (s : State) (en : BitVec 1) (current : BitVec 64) : Memory :=
  putField ctrlCurrent current
    (putField ctrlStages ((stFlags s).setWidth 64)
      (putField ctrlClear ((clrFlag s).setWidth 64)
        (putField ctrlEnable (en.setWidth 64)
          (putField ctrlVoltage (voltageField s) []))))

/-- Place a control frame in the frame registers and answer with it (R179, R184). -/
def respondFrame (m : Memory) (s : State) : Res :=
  respond .ok m.le64 { s with cb := m, cid := s.par.ctrlId, cdlc := 8#4 }

/-- CENC (R179). -/
def execCenc (s : State) : Res := respondFrame (controlFrame s (enFlag s) (currentField s)) s

/-- CENCOFF (R184): EN and current forced to zero, the command registers untouched. -/
def execCencoff (s : State) : Res := respondFrame (controlFrame s 0#1 0#64) s

/-! ## The frame registers -/

/-- The first `n` bytes of a 64-bit operand, byte `i` from bits `8i+7 : 8i`; the rest zero
(R57, R186). -/
def payloadBytes (d : BitVec 64) : Nat → Memory
  | 0 => []
  | n + 1 => (payloadBytes d n).write n (d.extractLsb' (8 * n) 8)

/-- CLD (R186). -/
def execCld (id : BitVec 32) (dlc : BitVec 16) (payload : BitVec 64) (s : State) : Res :=
  if 8 < dlc.toNat then raise .operandFault s
  else respond .ok 0#64
    { s with cid := id.extractLsb' 0 11, cdlc := dlc.extractLsb' 0 4
             cb := payloadBytes payload dlc.toNat }

/-- CRD (R188). -/
def execCrd (s : State) : Res := respond .ok s.cb.le64 s

/-! ## Decode -/

/-- An entry matches an identifier: `(CID & mask) == id` (R190). -/
def entryMatches (e : IdEntry) (cid : BitVec 11) : Bool := decide (cid &&& e.mask = e.id)

/-- The first matching entry of the table (R190). -/
def lookupId (tab : List IdEntry) (cid : BitVec 11) : Option IdEntry :=
  match tab with
  | [] => none
  | e :: rest => if entryMatches e cid then some e else lookupId rest cid

/-- The kind whose record the frame replaces; none when no entry matches or the frame is shorter
than the first matching entry's minimum (R192). -/
def frameKind (s : State) : Option Kind :=
  match lookupId s.par.idTab s.cid with
  | none => none
  | some e => if s.cdlc.toNat < e.minlen then none else some e.kind

/-- Replace a whole record by the payload in CB (R192, R194). -/
def latch (k : Kind) (s : State) : State :=
  { s with tel := s.tel.set k.num { raw := s.cb, valid := true }, tchg := true }

/-- CDEC (R192). -/
def execCdec (s : State) : Res :=
  match frameKind s with
  | none => respond .ignored 0#64 s
  | some k => respond .ok (BitVec.ofNat 64 k.num.val) (latch k s)

/-- The record of a kind (R39). -/
def record (s : State) (k : Kind) : TelRecord := s.tel[k.num]

/-- TFLD (R196). -/
def execTfld (kind : KindSel) (a : BitVec 32) (n : BitVec 16) (s : State) : Res :=
  match named kind with
  | none => raise .operandFault s
  | some k =>
    if Config.bfMaxLen < n.toNat then raise .operandFault s
    else if bitsInRange 8 a n then
      if (record s k).valid then respond .ok (bfGet (record s k).raw a.toNat n.toNat) s
      else respond .empty 0#64 s
    else raise .indexFault s

/-- TACK (R198). -/
def execTack (s : State) : Res :=
  respond .ok ((BitVec.ofBool s.tchg).setWidth 64) { s with tchg := false }

end Sys2Proof.Machine
end

