-- ==== Sys2Proof/Machine/Crc.lean ====
section
/-! DEFINITION. The CRC-16/Modbus unit (spec/41_crc16.md). -/

namespace Sys2Proof.Machine

/-- One turn of the bit loop: shift right, and when the bit shifted out was 1 exclusive-or the
polynomial (R115). PRESUMED (unsafe, log entry 6): R115 marks the loop's shape as general knowledge.
-/
def crcShift (c : BitVec 16) : BitVec 16 :=
  if c.getLsbD 0 then (c >>> 1) ^^^ Config.crcPoly else c >>> 1

/-- `k` turns of the bit loop. -/
def crcShifts : Nat → BitVec 16 → BitVec 16
  | 0, c => c
  | k + 1, c => crcShifts k (crcShift c)

/-- `crc_step(c, b)` (R115): the byte enters the low 8 bits, then eight turns. -/
def crcStep (c : BitVec 16) (b : Byte) : BitVec 16 := crcShifts 8 (c ^^^ b.setWidth 16)

/-- The accumulator after a byte sequence, from `c` on. -/
def crcFrom (c : BitVec 16) : List Byte → BitVec 16
  | [] => c
  | b :: bs => crcFrom (crcStep c b) bs

/-- `crc16(bytes)` (R116): from the seed, bytes in rising index order, nothing done to the result,
which R116 marks as general knowledge too (log entry 6). -/
def crc16 (bytes : List Byte) : BitVec 16 := crcFrom Config.crcSeed bytes

/-- The low trailer byte `crc[7:0]`, which goes first (R123). -/
def crcLo (c : BitVec 16) : Byte := c.extractLsb' 0 8

/-- The high trailer byte `crc[15:8]` (R123). -/
def crcHi (c : BitVec 16) : Byte := c.extractLsb' 8 8

/-- End with OK, leaving the CRC in the register and in the result. -/
def respondCrc (c : BitVec 16) (s : State) : Res :=
  respond .ok (c.setWidth 64) { s with crc := c }

/-- CRCINIT (R118). -/
def execCrcinit (s : State) : Res := respondCrc Config.crcSeed s

/-- CRCUPD (R120). -/
def execCrcupd (b : Byte) (s : State) : Res := respondCrc (crcStep s.crc b) s

/-- CRCBUF (R122). -/
def execCrcbuf (sel : BufSel) (a : BitVec 32) (n : BitVec 16) (s : State) : Res :=
  match named sel with
  | none => raise .operandFault s
  | some b =>
    if bytesInRange (bufSize s b) a n then
      respondCrc (crc16 ((bufMem s b).bytes a.toNat n.toNat)) s
    else raise .indexFault s

/-- CRCAPP (R124): the two trailer bytes are always written, so the bound holds for `n = 0` too. -/
def execCrcapp (sel : BufSel) (a : BitVec 32) (n : BitVec 16) (s : State) : Res :=
  match writeTarget sel with
  | none => raise .operandFault s
  | some b =>
    if bufSize s b < a.toNat + n.toNat + 2 then raise .indexFault s
    else
      let m := bufMem s b
      let c := crc16 (m.bytes a.toNat n.toNat)
      respondCrc c (setBuf s b (m.writeBytes (a.toNat + n.toNat) [crcLo c, crcHi c]))

/-- CRCCHK (R126): range, then length, then the trailer (R232). A frame of 2 bytes is FE_MBLEN even
after CRCAPP of an empty message (DEDUCED, log entry 9). -/
def execCrcchk (sel : BufSel) (a : BitVec 32) (n : BitVec 16) (s : State) : Res :=
  match named sel with
  | none => raise .operandFault s
  | some b =>
    if bytesInRange (bufSize s b) a n then
      if n.toNat < 3 then raise .feMbLen s
      else
        let m := bufMem s b
        let c := crc16 (m.bytes a.toNat (n.toNat - 2))
        if m.read (a.toNat + n.toNat - 2) = crcLo c ∧ m.read (a.toNat + n.toNat - 1) = crcHi c then
          respondCrc c s
        else raise .feCrc s
    else raise .indexFault s

end Sys2Proof.Machine
end

