-- ==== Sys2Proof/Machine/Sum.lean ====
section
/-! DEFINITION. The additive checksum unit (spec/42_checksum.md). -/

namespace Sys2Proof.Machine

/-- `sum8(bytes)` (R135): the sum modulo 256. -/
def sum8 : List Byte → BitVec 8
  | [] => 0#8
  | b :: bs => b + sum8 bs

/-- End with OK, leaving the checksum in the register and in the result. -/
def respondSum (c : BitVec 8) (s : State) : Res :=
  respond .ok (c.setWidth 64) { s with sum := c }

/-- SUMINIT (R137). -/
def execSuminit (s : State) : Res := respondSum 0#8 s

/-- SUMUPD (R138). -/
def execSumupd (b : Byte) (s : State) : Res := respondSum (s.sum + b) s

/-- SUMBUF (R140). -/
def execSumbuf (sel : BufSel) (a : BitVec 32) (n : BitVec 16) (s : State) : Res :=
  match named sel with
  | none => raise .operandFault s
  | some b =>
    if bytesInRange (bufSize s b) a n then
      respondSum (sum8 ((bufMem s b).bytes a.toNat n.toNat)) s
    else raise .indexFault s

end Sys2Proof.Machine
end

