-- ==== Sys2Proof/Machine/System.lean ====
section
/-! DEFINITION. The system operations NOP, SRST, RDR, ECLR (spec/45_buffer_system.md) and the answer
to a word that is no operation (spec/30_encoding.md R79). -/

namespace Sys2Proof.Machine

/-- NOP (R215). -/
def execNop (s : State) : Res := respond .ok 0#64 s

/-- The state after SRST (R216, R44): every register at its reset value, the bytes of WB, RXB, BMW
and the record payloads kept. -/
def softReset (s : State) : State :=
  { State.reset with
    wb := s.wb, rxb := s.rxb, bmw := s.bmw
    tel := s.tel.map fun x => { x with valid := false }
    par := s.par, port := s.port }

/-- SRST (R216). -/
def execSrst (s : State) : Res := respond .ok 0#64 (softReset s)

/-- `E = RXB[3] + 6`, computed without wrap-around (R153). -/
def expectedLen (m : Memory) : Nat := (m.read 3).toNat + 6

/-- Bit `k` is the valid bit of record `k`, for the first `k` records (R41, register TVALID). -/
def validBits (tel : Vector TelRecord 13) : Nat → BitVec 64
  | 0 => 0#64
  | k + 1 => validBits tel k |||
      (if (tel[k]?.map TelRecord.valid).getD false then 1#64 <<< k else 0#64)

/-- The value of a register as RDR lays it out (R41). -/
def regValue (s : State) : Reg → BitVec 64
  | .id => s.par.engineId
  | .esr => s.esr.setWidth 64
  | .evt => 0#61 ++ BitVec.ofBool s.bmv ++ BitVec.ofBool (telChanged s)
      ++ BitVec.ofBool (frameReady s)
  | .crc => s.crc.setWidth 64
  | .sum => s.sum.setWidth 64
  | .fstat =>
    let e : BitVec 9 := if 4 ≤ s.rxlen.toNat then BitVec.ofNat 9 (expectedLen s.rxb) else 0#9
    0#23 ++ e ++ 0#7 ++ s.rxlen ++ 0#14 ++ s.fst.code
  | .cmdf => s.cmdf.setWidth 64
  | .cmdv => s.cmdv.signExtend 64
  | .cmdi => s.cmdi.signExtend 64
  | .canhdr => 0#44 ++ s.cdlc ++ 0#5 ++ s.cid
  | .tvalid => validBits s.tel 13

/-- RDR (R218). -/
def execRdr (reg : RegSel) (s : State) : Res :=
  match named reg with
  | none => raise .operandFault s
  | some x => respond .ok (regValue s x) s

/-- ECLR (R219). -/
def execEclr (mask : BitVec 16) (s : State) : Res :=
  respond .ok (s.esr.setWidth 64) { s with esr := s.esr &&& ~~~mask }

/-- A command word whose opcode is none of the 29 (R79): the operands are not looked at. -/
def illegalOp (s : State) : Res := raise .illegalOp s

end Sys2Proof.Machine
end

