-- ==== Sys2Proof/Machine/Framer.lean ====
section
/-! DEFINITION. The custom frame framer (spec/43_framer.md): request builder, byte-serial scanner,
response decoder. -/

namespace Sys2Proof.Machine

/-- First byte of marker and footer (R145). -/
def markA : Byte := 0xAF#8

/-- Second byte of the marker (R145). -/
def markB : Byte := 0xFA#8

/-- Second byte of the footer (R145). -/
def footB : Byte := 0xA0#8

/-! ## Requests -/

/-- FFLUSH (R146): the bytes of RXB stay, unreadable. -/
def execFflush (s : State) : Res := respond .ok 0#64 { s with rxlen := 0#9, fst := .hunt0 }

/-- The six covered bytes of a request, indices 2 to 7 (R147). -/
def requestBody (addr kind1 kind2 : Byte) : List Byte := [addr, 0x05#8, 0x01#8, addr, kind1, kind2]

/-- The 11 bytes of a request frame (R147). -/
def requestFrame (addr kind1 kind2 : Byte) : List Byte :=
  [markA, markB] ++ requestBody addr kind1 kind2
    ++ [sum8 (requestBody addr kind1 kind2), markA, footB]

/-- FREQ (R148): the scanner is not flushed. -/
def execFreq (addr kind1 kind2 : Byte) (s : State) : Res :=
  respondSum (sum8 (requestBody addr kind1 kind2))
    { s with wb := s.wb.writeBytes 0 (requestFrame addr kind1 kind2) }

/-! ## The scanner -/

/-- The count in RXB reached `E`: accept the frame or resynchronise silently (R154). -/
def scanFooter (s : State) : State :=
  let e := expectedLen s.rxb
  if s.rxb.read (e - 2) = markA ∧ s.rxb.read (e - 1) = footB then { s with fst := .ready }
  else { s with rxlen := 0#9, fst := .hunt0, esr := esrWith resyncBit s.esr }

/-- One byte while collecting (R153): append it, then test the count. Outside 2 to 260 stored bytes,
which R45 rules out, the count is what 9 bits hold (DEDUCED, safe, log entry 7). -/
def scanCollect (b : Byte) (s : State) : State :=
  let s' := { s with rxb := s.rxb.write s.rxlen.toNat b, rxlen := s.rxlen + 1#9 }
  if s'.rxlen.toNat < 4 ∨ s'.rxlen.toNat < expectedLen s'.rxb then s' else scanFooter s'

/-- One byte while hunting with a pending 0xAF (R152). -/
def scanHunt1 (b : Byte) (s : State) : State :=
  if b = markB then
    { s with rxb := s.rxb.writeBytes 0 [markA, markB], rxlen := 2#9, fst := .collect }
  else if b = markA then { s with fst := .hunt1 }
  else { s with fst := .hunt0 }

/-- One byte into the scanner (R150 to R155); in READY it is dropped. -/
def scanByte (b : Byte) (s : State) : State :=
  match s.fst with
  | .hunt0 => if b = markA then { s with fst := .hunt1 } else s
  | .hunt1 => scanHunt1 b s
  | .collect => scanCollect b s
  | .ready => s

/-- FPUSH (R150): OK with the new scanner state, or BUSY while a frame is held (R155). -/
def execFpush (b : Byte) (s : State) : Res :=
  respond (if s.fst = .ready then .busy else .ok)
    (((scanByte b s).fst.code).setWidth 64) (scanByte b s)

/-! ## Responses -/

/-- Word `k` of the payload at index `off`, high byte first (R165). -/
def payloadWord (f : Nat → Byte) (off k : Nat) : BitVec 16 := f (off + 2 * k) ++ f (off + 2 * k + 1)

/-- The ten payload words (R158, R166). -/
def payloadWords (f : Nat → Byte) (off : Nat) : Vector (BitVec 16) 10 :=
  #v[payloadWord f off 0, payloadWord f off 1, payloadWord f off 2, payloadWord f off 3,
    payloadWord f off 4, payloadWord f off 5, payloadWord f off 6, payloadWord f off 7,
    payloadWord f off 8, payloadWord f off 9]

/-- The checks of a response frame `f` of `len` bytes, in order: the first that fails (R160, R161).
No checksum is verified (R163). -/
def frameError (f : Nat → Byte) (len off : Nat) : Option EngFault :=
  if len < 9 then some .feLength
  else if f 0 ≠ markA ∨ f 1 ≠ markB then some .feHeader
  else if f (len - 2) ≠ markA ∨ f (len - 1) ≠ footB then some .feFooter
  else if f Config.rspCmdIdx ≠ 0x03#8 then some .feCommand
  else if len < off + 22 then some .fePayload
  else none

/-- Validate a frame and unpack it, all or nothing (R160, R164). -/
def decodeFrame (f : Nat → Byte) (len : Nat) (s : State) : Res :=
  match frameError f len s.par.payloadOff with
  | some e => raise e s
  | none => respond .ok 0#64 { s with bmw := payloadWords f s.par.payloadOff, bmv := true }

/-- FDEC (R160): of RXB the frame the scanner holds, whatever `a` and `n`; of WB or CB the given
bytes. -/
def execFdec (sel : BufSel) (a : BitVec 32) (n : BitVec 16) (s : State) : Res :=
  match named sel with
  | none => raise .operandFault s
  | some .rxb =>
    if s.fst = .ready then decodeFrame s.rxb.read s.rxlen.toNat s
    else respond .empty 0#64 s
  | some b =>
    if bytesInRange (bufSize s b) a n then
      decodeFrame (fun j => (bufMem s b).read (a.toNat + j)) n.toNat s
    else raise .indexFault s

/-- The result of FWORD: Current and Temp are signed, the other eight are not (R166, R168). -/
def wordValue (bmw : Vector (BitVec 16) 10) (k : BmuWord) : BitVec 64 :=
  let x := bmw[k.num]
  match k with
  | .current => x.signExtend 64
  | .temp => x.signExtend 64
  | _ => x.setWidth 64

/-- FWORD (R168). -/
def execFword (k : WordSel) (s : State) : Res :=
  match named k with
  | none => raise .operandFault s
  | some x => if s.bmv then respond .ok (wordValue s.bmw x) s else respond .empty 0#64 s

end Sys2Proof.Machine
end

