-- ==== Sys2Proof/Machine/Dispatch.lean ====
section
/-! DEFINITION. The meaning of each operation, one arm per constructor of `Instr`. -/

namespace Sys2Proof.Machine

def exec (i : Instr) (s : State) : Host.Outcome State Fault Refusal :=
  match i with
  | .nop => Sys2Proof.Machine.execNop s
  | .srst => Sys2Proof.Machine.execSrst s
  | .rdr reg => Sys2Proof.Machine.execRdr reg s
  | .eclr mask => Sys2Proof.Machine.execEclr mask s
  | .ldb sel a => Sys2Proof.Machine.execLdb sel a s
  | .stb sel a b => Sys2Proof.Machine.execStb sel a b s
  | .crcinit => Sys2Proof.Machine.execCrcinit s
  | .crcupd b => Sys2Proof.Machine.execCrcupd b s
  | .crcbuf sel a n => Sys2Proof.Machine.execCrcbuf sel a n s
  | .crcapp sel a n => Sys2Proof.Machine.execCrcapp sel a n s
  | .crcchk sel a n => Sys2Proof.Machine.execCrcchk sel a n s
  | .suminit => Sys2Proof.Machine.execSuminit s
  | .sumupd b => Sys2Proof.Machine.execSumupd b s
  | .sumbuf sel a n => Sys2Proof.Machine.execSumbuf sel a n s
  | .bfget sel a n => Sys2Proof.Machine.execBfget sel a n s
  | .bfset sel a n d => Sys2Proof.Machine.execBfset sel a n d s
  | .fflush => Sys2Proof.Machine.execFflush s
  | .freq addr kind1 kind2 => Sys2Proof.Machine.execFreq addr kind1 kind2 s
  | .fpush b => Sys2Proof.Machine.execFpush b s
  | .fdec sel a n => Sys2Proof.Machine.execFdec sel a n s
  | .fword k => Sys2Proof.Machine.execFword k s
  | .cmdset v c flags => Sys2Proof.Machine.execCmdset v c flags s
  | .cenc => Sys2Proof.Machine.execCenc s
  | .cencoff => Sys2Proof.Machine.execCencoff s
  | .cld id dlc payload => Sys2Proof.Machine.execCld id dlc payload s
  | .crd => Sys2Proof.Machine.execCrd s
  | .cdec => Sys2Proof.Machine.execCdec s
  | .tfld kind a n => Sys2Proof.Machine.execTfld kind a n s
  | .tack => Sys2Proof.Machine.execTack s

end Sys2Proof.Machine
end

