-- ==== Sys2Proof/Machine/Step.lean ====
section
/-! DEFINITION. One step: take the next thing the outside presents and carry it out to its response
(spec/10_state.md R20, spec/60_exceptions.md R225). -/

namespace Sys2Proof.Machine

/-- One step. With nothing presented the engine holds its state (R244, R256); a command word is
decoded and executed, or answered as illegal (R79); the power-on reset input resets (R255). -/
def step (s : State) : Host.Outcome State Fault Refusal :=
  match nextInput s with
  | none => .next s
  | some (.powerOn wb, s') => .next (powerOn wb s')
  | some (.command w, s') =>
    match decode w with
    | .ok i => exec i s'
    | .error _ => illegalOp s'

/-- `s` with the command word whose bits are `w` (numbered as spec/opcode_table.json numbers them)
presented next, before whatever the outside has to present after it. -/
def State.withFetchWord (s : State) (nbits w : Nat) : State :=
  { s with port := .command (BitVec.ofNat 128 (w % 2 ^ nbits)) :: s.port }

end Sys2Proof.Machine
end

