-- ==== Sys2Proof/Safety.lean ====
section
/-! DEFINITION. The terms claims use: the invariants of spec/10_state.md R45, the reset values of R44,
what a safe run is, and the feeding of bytes to the scanner one FPUSH after another. -/

namespace Sys2Proof.Machine

/-- A buffer is in its canonical form and holds nothing at or above its size. -/
abbrev Memory.ok (size : Nat) (m : Memory) : Prop := m.wf = true ∧ m.within size = true

/-- Every buffer and every latched payload is canonical and within its size (R50, R39). -/
abbrev BuffersOk (s : State) : Prop :=
  Memory.ok 256 s.wb ∧ Memory.ok 261 s.rxb ∧ Memory.ok 8 s.cb ∧
    ∀ k : Fin 13, Memory.ok 8 (s.tel[k]).raw

/-- A marker stands at the start of RXB (R27). -/
abbrev MarkerHeld (s : State) : Prop := s.rxb.read 0 = 0xAF#8 ∧ s.rxb.read 1 = 0xFA#8

/-- While hunting nothing is stored (R28, R45). -/
abbrev HuntOk (s : State) : Prop := s.fst = .hunt0 ∨ s.fst = .hunt1 → s.rxlen.toNat = 0

/-- While collecting, the marker is stored and the frame is not complete (R28, R45). -/
abbrev CollectOk (s : State) : Prop := s.fst = .collect →
  2 ≤ s.rxlen.toNat ∧ s.rxlen.toNat ≤ 260 ∧ MarkerHeld s ∧
    (4 ≤ s.rxlen.toNat → s.rxlen.toNat < (s.rxb.read 3).toNat + 6)

/-- A held frame is complete, opens with the marker and closes with the footer (R27, R28, R45). -/
abbrev ReadyOk (s : State) : Prop := s.fst = .ready →
  s.rxlen.toNat = (s.rxb.read 3).toNat + 6 ∧ MarkerHeld s ∧
    s.rxb.read (s.rxlen.toNat - 2) = 0xAF#8 ∧ s.rxb.read (s.rxlen.toNat - 1) = 0xA0#8

/-- ESR bits 15:11 read as zero (R32, R45). -/
abbrev EsrOk (s : State) : Prop := s.esr.extractLsb' 11 5 = 0#5

/-- A set change flag means that some record has been received (R45). -/
abbrev ChangeOk (s : State) : Prop := s.tchg = true → ∃ k : Fin 13, (s.tel[k]).valid = true

/-- The invariants of R45, with the canonical form of the buffers (log entry 4). -/
abbrev Inv (s : State) : Prop :=
  BuffersOk s ∧ s.rxlen.toNat ≤ 261 ∧ HuntOk s ∧ CollectOk s ∧ ReadyOk s ∧ s.cdlc.toNat ≤ 8 ∧
    EsrOk s ∧ ChangeOk s

/-- The reset values R44 states (the bytes it calls unspecified left out). -/
abbrev AtResetValues (s : State) : Prop :=
  s.crc = 0xFFFF#16 ∧ s.sum = 0x00#8 ∧ s.rxlen = 0#9 ∧ s.fst = .hunt0 ∧ s.bmv = false ∧ s.cb = [] ∧
    s.cid = 0#11 ∧ s.cdlc = 0#4 ∧ s.cmdv = 0#32 ∧ s.cmdi = 0#32 ∧ s.cmdf = 0#11 ∧
    (∀ k : Fin 13, (s.tel[k]).valid = false) ∧ s.tchg = false ∧ s.esr = 0x0000#16

/-- A safe run: for every number of steps the engine is still running, and its invariants hold. -/
def SafeRun (s : State) : Prop :=
  ∀ k, ∃ t, Host.Core.run Sys2Proof.core k s = .next t ∧ Inv t

/-- The state after pushing a byte sequence into the scanner, one FPUSH a byte (FEED of R85). -/
def feed : List Byte → State → Option State
  | [], s => some s
  | b :: bs, s =>
    match exec (.fpush b) s with
    | .next t => feed bs t
    | .fault _ => none
    | .refused _ => none

/-- A frame as the scanner counts it: marker, length byte at index 3, `F[3] + 6` bytes (R153, R158).
-/
def Counted (f : List Byte) : Prop :=
  f[0]? = some 0xAF#8 ∧ f[1]? = some 0xFA#8 ∧
    ∃ e : Byte, f[3]? = some e ∧ f.length = e.toNat + 6

/-- The last two bytes of a frame are the footer (R145). -/
def FooterGood (f : List Byte) : Prop :=
  f[f.length - 2]? = some 0xAF#8 ∧ f[f.length - 1]? = some 0xA0#8

/-- The words with opcode `op` are the operation that `f` builds from the other fields, whatever a
field that `f` drops holds (R70, R71). -/
def Encodes (op : BitVec 8) (f : BitVec 8 → BitVec 16 → BitVec 32 → BitVec 64 → Instr) : Prop :=
  ∀ sel n a d, decode (mkWord op sel n a d) = .ok (f sel n a d)

/-- The reserved operand values of R80, by opcode. -/
abbrev ReservedOperand (op sel : BitVec 8) (n : BitVec 16) (a : BitVec 32) : Prop :=
  (op ∈ [0x10#8, 0x11#8, 0x22#8, 0x23#8, 0x24#8, 0x32#8, 0x40#8, 0x41#8, 0x53#8] ∧
      3 ≤ sel.toNat) ∨
    (op ∈ [0x11#8, 0x23#8, 0x41#8] ∧ sel = 1#8) ∨
    (op = 0x66#8 ∧ 13 ≤ sel.toNat) ∨
    (op ∈ [0x40#8, 0x41#8, 0x66#8] ∧ 64 < n.toNat) ∨
    (op = 0x02#8 ∧ 11 ≤ a.toNat) ∨ (op = 0x54#8 ∧ 10 ≤ a.toNat) ∨
    (op = 0x63#8 ∧ 8 < n.toNat)

/-- The opcodes that are none of the 29 (R79). -/
abbrev IllegalOpcode (op : Nat) : Prop :=
  (0x04 ≤ op ∧ op ≤ 0x0F) ∨ (0x12 ≤ op ∧ op ≤ 0x1F) ∨ (0x25 ≤ op ∧ op ≤ 0x2F) ∨
    (0x33 ≤ op ∧ op ≤ 0x3F) ∨ (0x42 ≤ op ∧ op ≤ 0x4F) ∨ (0x55 ≤ op ∧ op ≤ 0x5F) ∨ 0x68 ≤ op

/-- The bytes `j .. j+n-1` of a buffer, index `j` first. -/
def rangeOf (m : Memory) (j n : Nat) : List Byte := (List.range n).map fun k => m.read (j + k)

/-- Bit `p` of a buffer is bit `p % 8` of its byte `p / 8` (R56). -/
def bitOf (m : Memory) (p : Nat) : Bool := (m.read (p / 8)).getLsbD (p % 8)

end Sys2Proof.Machine
end

