-- ==== Sys2Proof/Certificates/Slice0/Obligations.lean ====
section
/-! DEFINITION. The statements for the provers, from the numbered rules of spec/. In every statement
`s` is any state at all unless an invariant is a premise, so the parameters and the content of the
buffers are any. `s.answer st r` is `s` with that response, `s.raised f` is `s` after the fault `f`
(`FaultsArePrecise` says field by field what that is). -/

open Sys2Proof Sys2Proof.Machine

/-! ## Reset -/

/-- R44: the power-on state and the state after SRST hold the values of the table. (The values of
WB, RXB, BMW and the payloads, which R44 leaves unspecified, are not claimed.) -/
def Obligations.ResetLeavesTheStatedValues : Prop :=
  AtResetValues State.reset ∧
  (∀ (wb : List Byte) (s : State), AtResetValues (powerOn wb s)) ∧
  ∀ s : State, ∃ t, exec .srst s = .next t ∧ AtResetValues t

/-- The model's reading of R255 and U1: the power-on input leaves WB at any 256 bytes whatever, and
nothing of the old state but the parameters and the pending inputs (log entries 1, 2 and 5). -/
def Obligations.PowerOnTakesAnyWorkBuffer : Prop :=
  ∀ (s : State) (bytes : List Byte) (rest : List Input), bytes.length = 256 →
    s.port = .powerOn bytes :: rest →
    ∃ t, step s = .next t ∧ AtResetValues t ∧ t.par = s.par ∧ t.port = rest ∧
      ∀ j v, bytes[j]? = some v → t.wb.read j = v

/-- R216. -/
def Obligations.SrstResetsAndKeepsBytes : Prop :=
  (Encodes 0x01#8 fun _ _ _ _ => .srst) ∧
  ∀ s : State, ∃ t, exec .srst s = .next t ∧ AtResetValues t ∧
    t.wb = s.wb ∧ t.rxb = s.rxb ∧ t.bmw = s.bmw ∧
    (∀ k : Fin 13, (t.tel[k]).raw = (s.tel[k]).raw) ∧
    t.par = s.par ∧ t.port = s.port ∧ t.rsp = some ⟨.ok, 0#64⟩

/-! ## System operations -/

/-- R215. -/
def Obligations.NopDoesNothing : Prop :=
  (Encodes 0x00#8 fun _ _ _ _ => .nop) ∧ decode 0#128 = .ok .nop ∧
  ∀ s : State, exec .nop s = .next (s.answer .ok 0#64)

/-- R218 with R41: the layout of every register, bit for bit; a bit that the layout does not list is
zero. -/
def Obligations.RdrReadsEveryRegister : Prop :=
  (Encodes 0x02#8 fun _ _ a _ => .rdr (decodeSel Reg.ofNum a)) ∧
  (∀ a : BitVec 32, 11 ≤ a.toNat → decodeSel Reg.ofNum a = .reserved a) ∧
  (∀ (s : State) (v : BitVec 32), exec (.rdr (.reserved v)) s = .next (s.raised .operandFault)) ∧
  ∀ s : State,
    (∃ r, exec (.rdr (decodeSel Reg.ofNum 0#32)) s = .next (s.answer .ok r) ∧
      r = s.par.engineId) ∧
    (∃ r, exec (.rdr (decodeSel Reg.ofNum 1#32)) s = .next (s.answer .ok r) ∧
      r.toNat = s.esr.toNat) ∧
    (∃ r, exec (.rdr (decodeSel Reg.ofNum 2#32)) s = .next (s.answer .ok r) ∧
      r.toNat = (if s.fst = .ready then 1 else 0) + (if s.tchg then 2 else 0) +
        (if s.bmv then 4 else 0)) ∧
    (∃ r, exec (.rdr (decodeSel Reg.ofNum 3#32)) s = .next (s.answer .ok r) ∧
      r.toNat = s.crc.toNat) ∧
    (∃ r, exec (.rdr (decodeSel Reg.ofNum 4#32)) s = .next (s.answer .ok r) ∧
      r.toNat = s.sum.toNat) ∧
    (∃ r, exec (.rdr (decodeSel Reg.ofNum 5#32)) s = .next (s.answer .ok r) ∧
      r.toNat = s.fst.code.toNat + s.rxlen.toNat * 2 ^ 16 +
        (if 4 ≤ s.rxlen.toNat then (s.rxb.read 3).toNat + 6 else 0) * 2 ^ 32) ∧
    (∃ r, exec (.rdr (decodeSel Reg.ofNum 6#32)) s = .next (s.answer .ok r) ∧
      r.toNat = s.cmdf.toNat) ∧
    (∃ r, exec (.rdr (decodeSel Reg.ofNum 7#32)) s = .next (s.answer .ok r) ∧
      r.toInt = s.cmdv.toInt) ∧
    (∃ r, exec (.rdr (decodeSel Reg.ofNum 8#32)) s = .next (s.answer .ok r) ∧
      r.toInt = s.cmdi.toInt) ∧
    (∃ r, exec (.rdr (decodeSel Reg.ofNum 9#32)) s = .next (s.answer .ok r) ∧
      r.toNat = s.cid.toNat + s.cdlc.toNat * 2 ^ 16) ∧
    (∃ r, exec (.rdr (decodeSel Reg.ofNum 10#32)) s = .next (s.answer .ok r) ∧
      (∀ k : Fin 13, r.getLsbD k = (s.tel[k]).valid) ∧ ∀ k, 13 ≤ k → r.getLsbD k = false)

/-- R219. -/
def Obligations.EclrClearsMaskedBits : Prop :=
  (Encodes 0x03#8 fun _ _ _ d => .eclr (d.extractLsb' 0 16)) ∧
  ∀ (s : State) (mask : BitVec 16), ∃ e r,
    exec (.eclr mask) s = .next (({ s with esr := e } : State).answer .ok r) ∧
    r.toNat = s.esr.toNat ∧ ∀ k, e.getLsbD k = (s.esr.getLsbD k && !mask.getLsbD k)

/-! ## Buffer access -/

/-- R211, with the readable sizes of R52. -/
def Obligations.LdbReadsOneByte : Prop :=
  (Encodes 0x10#8 fun sel _ a _ => .ldb (decodeSel Buf.ofNum sel) a) ∧
  ∀ (s : State) (a : BitVec 32),
    (∀ v, exec (.ldb (.reserved v) a) s = .next (s.raised .operandFault)) ∧
    exec (.ldb (.named .wb) a) s = .next (if a.toNat < 256
      then s.answer .ok ((s.wb.read a.toNat).setWidth 64) else s.raised .indexFault) ∧
    exec (.ldb (.named .rxb) a) s = .next (if a.toNat < s.rxlen.toNat
      then s.answer .ok ((s.rxb.read a.toNat).setWidth 64) else s.raised .indexFault) ∧
    exec (.ldb (.named .cb) a) s = .next (if a.toNat < 8
      then s.answer .ok ((s.cb.read a.toNat).setWidth 64) else s.raised .indexFault)

/-- R212: the byte at `a` and no other; RXB is refused. -/
def Obligations.StbWritesOneByte : Prop :=
  (Encodes 0x11#8 fun sel _ a d => .stb (decodeSel Buf.ofNum sel) a (d.extractLsb' 0 8)) ∧
  ∀ (s : State) (a : BitVec 32) (v : Byte),
    (∀ x, exec (.stb (.reserved x) a v) s = .next (s.raised .operandFault)) ∧
    exec (.stb (.named .rxb) a v) s = .next (s.raised .operandFault) ∧
    (∃ m, exec (.stb (.named .wb) a v) s = .next (if a.toNat < 256
        then ({ s with wb := m } : State).answer .ok 0#64 else s.raised .indexFault) ∧
      ∀ j, m.read j = if j = a.toNat then v else s.wb.read j) ∧
    (∃ m, exec (.stb (.named .cb) a v) s = .next (if a.toNat < 8
        then ({ s with cb := m } : State).answer .ok 0#64 else s.raised .indexFault) ∧
      ∀ j, m.read j = if j = a.toNat then v else s.cb.read j)

/-- R80 at the command port: each reserved operand value answers OperandFault, whatever the other
fields hold, and nothing else about an operand does. -/
def Obligations.ReservedOperandsFault : Prop :=
  ∀ (s : State) (rest : List Input) (op sel : BitVec 8) (n : BitVec 16) (a : BitVec 32)
    (d : BitVec 64), s.port = .command (mkWord op sel n a d) :: rest →
    (ReservedOperand op sel n a →
      step s = .next (({ s with port := rest } : State).raised .operandFault)) ∧
    (¬ReservedOperand op sel n a →
      ∃ t, step s = .next t ∧ ∀ r, t.rsp ≠ some ⟨.raised .operandFault, r⟩)

/-- R54 with R52: an access beyond the readable size of a buffer it may use answers IndexFault and
writes nothing; sums do not wrap. -/
def Obligations.OutOfRangeAccessFaults : Prop :=
  ∀ (s : State) (b : Buf) (a : BitVec 32) (n : BitVec 16) (d : BitVec 64) (v : Byte),
    (bufSize s b ≤ a.toNat → exec (.ldb (.named b) a) s = .next (s.raised .indexFault)) ∧
    (bufSize s b ≤ a.toNat → b ≠ .rxb →
      exec (.stb (.named b) a v) s = .next (s.raised .indexFault)) ∧
    (n.toNat ≤ 64 → 0 < n.toNat → 8 * bufSize s b < a.toNat + n.toNat →
      exec (.bfget (.named b) a n) s = .next (s.raised .indexFault) ∧
      (b ≠ .rxb → exec (.bfset (.named b) a n d) s = .next (s.raised .indexFault))) ∧
    (0 < n.toNat → bufSize s b < a.toNat + n.toNat →
      exec (.crcbuf (.named b) a n) s = .next (s.raised .indexFault) ∧
      exec (.crcchk (.named b) a n) s = .next (s.raised .indexFault) ∧
      exec (.sumbuf (.named b) a n) s = .next (s.raised .indexFault) ∧
      (b ≠ .rxb → exec (.fdec (.named b) a n) s = .next (s.raised .indexFault))) ∧
    (bufSize s b < a.toNat + n.toNat + 2 → b ≠ .rxb →
      exec (.crcapp (.named b) a n) s = .next (s.raised .indexFault)) ∧
    ∀ k : Kind, n.toNat ≤ 64 → 0 < n.toNat → 64 < a.toNat + n.toNat →
      exec (.tfld (.named k) a n) s = .next (s.raised .indexFault)

/-! ## CRC -/

/-- R115, the bit loop turn by turn. The loop's shape (the byte into the low 8 bits, the test on the
bit shifted out) is what R115 itself marks as general knowledge and not the source's (93, G1; log
entry 6). -/
def Obligations.CrcStepIsTheBitLoop : Prop :=
  ∀ (c : BitVec 16) (b : Byte), ∃ f : Nat → BitVec 16,
    f 0 = c ^^^ b.setWidth 16 ∧
    (∀ k, k < 8 → f (k + 1) =
      if (f k).getLsbD 0 then (f k >>> 1) ^^^ 0xA001#16 else f k >>> 1) ∧
    crcStep c b = f 8

/-- R116, from the seed, one `crc_step` a byte in rising order, nothing after the last. That nothing
follows is what R116 itself marks as general knowledge and not the source's (93, G1; log entry 6).
-/
def Obligations.Crc16FoldsFromTheSeed : Prop :=
  crc16 [] = 0xFFFF#16 ∧ ∀ (bs : List Byte) (b : Byte), crc16 (bs ++ [b]) = crcStep (crc16 bs) b

/-- The table-driven form of the CRC, derived from R115 (log entry 6): a step is a shift by eight and
one table entry chosen by the low byte. R275 names that form as an implementation matter. -/
def Obligations.CrcStepIsATableStep : Prop :=
  ∀ (c : BitVec 16) (b : Byte),
    crcStep c b = (c >>> 8) ^^^ crcStep 0#16 (c.setWidth 8 ^^^ b)

/-- R118 and R120. -/
def Obligations.CrcStreamingOperations : Prop :=
  (Encodes 0x20#8 fun _ _ _ _ => .crcinit) ∧
  (Encodes 0x21#8 fun _ _ _ d => .crcupd (d.extractLsb' 0 8)) ∧
  ∀ s : State,
    exec .crcinit s = .next (({ s with crc := 0xFFFF#16 } : State).answer .ok 0xFFFF#64) ∧
    ∀ b : Byte, exec (.crcupd b) s = .next
      (({ s with crc := crcStep s.crc b } : State).answer .ok ((crcStep s.crc b).setWidth 64))

/-- R122. -/
def Obligations.CrcbufCoversItsRange : Prop :=
  (Encodes 0x22#8 fun sel n a _ => .crcbuf (decodeSel Buf.ofNum sel) a n) ∧
  ∀ (s : State) (a : BitVec 32) (n : BitVec 16),
    (∀ v, exec (.crcbuf (.reserved v) a n) s = .next (s.raised .operandFault)) ∧
    ∀ b : Buf, exec (.crcbuf (.named b) a n) s = .next
      (if n.toNat = 0 ∨ a.toNat + n.toNat ≤ bufSize s b then
        ({ s with crc := crc16 (rangeOf (bufMem s b) a.toNat n.toNat) } : State).answer .ok
          ((crc16 (rangeOf (bufMem s b) a.toNat n.toNat)).setWidth 64)
      else s.raised .indexFault)

/-- R124 with R123: the low trailer byte at `a + n`, the high one after it, no other byte. -/
def Obligations.CrcappAppendsTheTrailer : Prop :=
  (Encodes 0x23#8 fun sel n a _ => .crcapp (decodeSel Buf.ofNum sel) a n) ∧
  ∀ (s : State) (a : BitVec 32) (n : BitVec 16),
    (∀ v, exec (.crcapp (.reserved v) a n) s = .next (s.raised .operandFault)) ∧
    exec (.crcapp (.named .rxb) a n) s = .next (s.raised .operandFault) ∧
    ∀ b : Buf, b ≠ .rxb → ∃ (c : BitVec 16) (m : Memory),
      c = crc16 (rangeOf (bufMem s b) a.toNat n.toNat) ∧
      (∀ j, m.read j = if j = a.toNat + n.toNat then c.extractLsb' 0 8
        else if j = a.toNat + n.toNat + 1 then c.extractLsb' 8 8 else (bufMem s b).read j) ∧
      exec (.crcapp (.named b) a n) s = .next
        (if a.toNat + n.toNat + 2 ≤ bufSize s b then
          ({ setBuf s b m with crc := c } : State).answer .ok (c.setWidth 64)
        else s.raised .indexFault)

/-- R126: range, then length, then the two trailer bytes. -/
def Obligations.CrcchkJudgesTheTrailer : Prop :=
  (Encodes 0x24#8 fun sel n a _ => .crcchk (decodeSel Buf.ofNum sel) a n) ∧
  ∀ (s : State) (a : BitVec 32) (n : BitVec 16),
    (∀ v, exec (.crcchk (.reserved v) a n) s = .next (s.raised .operandFault)) ∧
    ∀ b : Buf, ∃ c : BitVec 16,
      c = crc16 (rangeOf (bufMem s b) a.toNat (n.toNat - 2)) ∧
      exec (.crcchk (.named b) a n) s = .next
        (if 0 < n.toNat ∧ bufSize s b < a.toNat + n.toNat then s.raised .indexFault
        else if n.toNat < 3 then s.raised .feMbLen
        else if (bufMem s b).read (a.toNat + n.toNat - 2) = c.extractLsb' 0 8 ∧
            (bufMem s b).read (a.toNat + n.toNat - 1) = c.extractLsb' 8 8 then
          ({ s with crc := c } : State).answer .ok (c.setWidth 64)
        else s.raised .feCrc)

/-- The source's property quoted in R128, for any message length at least 1: a frame the engine built
is never rejected. R128's own last sentence says every in-range `n`; the empty message is left out
here because R126 answers FE_MBLEN to the two bytes it makes (log entry 9). -/
def Obligations.CrcappThenCrcchkAccepts : Prop :=
  ∀ (s : State) (b : Buf) (a : BitVec 32) (n : BitVec 16), b ≠ .rxb → 1 ≤ n.toNat →
    a.toNat + n.toNat + 2 ≤ bufSize s b →
    ∃ t u r, exec (.crcapp (.named b) a n) s = .next t ∧
      exec (.crcchk (.named b) a (n + 2#16)) t = .next u ∧ u.rsp = some ⟨.ok, r⟩ ∧
      t.rsp = some ⟨.ok, r⟩

/-- R129, which the spec marks as derived from R115, R116 and R123 (log entry 6): the residue of every
message with its trailer. -/
def Obligations.CrcResidueIsZero : Prop :=
  ∀ bs : List Byte,
    crc16 (bs ++ [(crc16 bs).extractLsb' 0 8, (crc16 bs).extractLsb' 8 8]) = 0x0000#16

/-! ## Checksum -/

/-- R137 and R138. -/
def Obligations.SumStreamingOperations : Prop :=
  (Encodes 0x30#8 fun _ _ _ _ => .suminit) ∧
  (Encodes 0x31#8 fun _ _ _ d => .sumupd (d.extractLsb' 0 8)) ∧
  ∀ s : State, exec .suminit s = .next (({ s with sum := 0#8 } : State).answer .ok 0#64) ∧
    ∀ b : Byte, ∃ c : BitVec 8, c.toNat = (s.sum.toNat + b.toNat) % 256 ∧
      exec (.sumupd b) s = .next (({ s with sum := c } : State).answer .ok (c.setWidth 64))

/-- R140 with R135. -/
def Obligations.SumbufAddsItsRange : Prop :=
  (Encodes 0x32#8 fun sel n a _ => .sumbuf (decodeSel Buf.ofNum sel) a n) ∧
  ∀ (s : State) (a : BitVec 32) (n : BitVec 16),
    (∀ v, exec (.sumbuf (.reserved v) a n) s = .next (s.raised .operandFault)) ∧
    ∀ b : Buf, ∃ c : BitVec 8,
      c.toNat = ((rangeOf (bufMem s b) a.toNat n.toNat).map BitVec.toNat).sum % 256 ∧
      exec (.sumbuf (.named b) a n) s = .next
        (if n.toNat = 0 ∨ a.toNat + n.toNat ≤ bufSize s b then
          ({ s with sum := c } : State).answer .ok (c.setWidth 64)
        else s.raised .indexFault)

/-- R141: the checksum of every request the engine builds is the one stored in it. -/
def Obligations.SumbufOfARequestIsItsChecksum : Prop :=
  ∀ (s : State) (addr kind1 kind2 : Byte), ∃ t u,
    exec (.freq addr kind1 kind2) s = .next t ∧
    exec (.sumbuf (.named .wb) 2#32 6#16) t = .next u ∧
    u.rsp = some ⟨.ok, (t.wb.read 8).setWidth 64⟩

/-! ## Bit-field codec -/

/-- R104 with R100. -/
def Obligations.BfgetReadsTheField : Prop :=
  (Encodes 0x40#8 fun sel n a _ => .bfget (decodeSel Buf.ofNum sel) a n) ∧
  ∀ (s : State) (a : BitVec 32) (n : BitVec 16),
    (∀ v, exec (.bfget (.reserved v) a n) s = .next (s.raised .operandFault)) ∧
    ∀ b : Buf, ∃ r : BitVec 64,
      (n.toNat ≤ 64 →
        ∀ i, r.getLsbD i = (decide (i < n.toNat) && bitOf (bufMem s b) (a.toNat + i))) ∧
      exec (.bfget (.named b) a n) s = .next
        (if 64 < n.toNat then s.raised .operandFault
        else if 0 < n.toNat ∧ 8 * bufSize s b < a.toNat + n.toNat then s.raised .indexFault
        else s.answer .ok r)

/-- R106 with R101 and R102: the bits of the field, from the low bits of the value, and no other bit;
so no byte outside the field either. -/
def Obligations.BfsetWritesTheField : Prop :=
  (Encodes 0x41#8 fun sel n a d => .bfset (decodeSel Buf.ofNum sel) a n d) ∧
  ∀ (s : State) (a : BitVec 32) (n : BitVec 16) (d : BitVec 64),
    (∀ v, exec (.bfset (.reserved v) a n d) s = .next (s.raised .operandFault)) ∧
    exec (.bfset (.named .rxb) a n d) s = .next (s.raised .operandFault) ∧
    ∀ b : Buf, b ≠ .rxb → ∃ m : Memory,
      (∀ p, bitOf m p = if a.toNat ≤ p ∧ p < a.toNat + n.toNat then d.getLsbD (p - a.toNat)
        else bitOf (bufMem s b) p) ∧
      (∀ j, 8 * j + 8 ≤ a.toNat ∨ a.toNat + n.toNat ≤ 8 * j →
        m.read j = (bufMem s b).read j) ∧
      exec (.bfset (.named b) a n d) s = .next
        (if 64 < n.toNat then s.raised .operandFault
        else if 0 < n.toNat ∧ 8 * bufSize s b < a.toNat + n.toNat then s.raised .indexFault
        else (setBuf s b m).answer .ok 0#64)

/-- R108: what BFSET wrote, BFGET reads, and a bit outside the field keeps its value, at every length
from 0 to 64 (the source claims it to 57; 58 to 64 is, in R108's words, this spec's reading). -/
def Obligations.BitFieldRoundTrip : Prop :=
  ∀ (s : State) (b : Buf) (a : BitVec 32) (n : BitVec 16) (d : BitVec 64), b ≠ .rxb →
    n.toNat ≤ 64 → (n.toNat = 0 ∨ a.toNat + n.toNat ≤ 8 * bufSize s b) →
    ∃ t u r, exec (.bfset (.named b) a n d) s = .next t ∧
      exec (.bfget (.named b) a n) t = .next u ∧ u.rsp = some ⟨.ok, r⟩ ∧
      r.toNat = d.toNat % 2 ^ n.toNat ∧
      ∀ p, p < a.toNat ∨ a.toNat + n.toNat ≤ p → bitOf (bufMem t b) p = bitOf (bufMem s b) p

/-- R109, which the spec marks as derived: setting a field twice is setting it once, and disjoint fields commute and do not disturb
each other; as equal data when the buffer is canonical. -/
def Obligations.BitFieldLaws : Prop :=
  ∀ (m : Memory) (s1 l1 s2 l2 : Nat) (v1 v2 : BitVec 64), m.wf = true → l1 ≤ 64 → l2 ≤ 64 →
    bfSet (bfSet m s1 l1 v1) s1 l1 v1 = bfSet m s1 l1 v1 ∧
    (s1 + l1 ≤ s2 →
      bfSet (bfSet m s1 l1 v1) s2 l2 v2 = bfSet (bfSet m s2 l2 v2) s1 l1 v1 ∧
      bfGet (bfSet m s1 l1 v1) s2 l2 = bfGet m s2 l2 ∧
      bfGet (bfSet m s2 l2 v2) s1 l1 = bfGet m s1 l1)

/-- R58's first sentence, which the spec marks as derived: a field of an 8-byte buffer is a slice of LE64. -/
def Obligations.BfgetIsASliceOfLe64 : Prop :=
  ∀ (m : Memory) (start len : Nat), start + len ≤ 64 →
    (bfGet m start len).toNat = (m.le64.toNat >>> start) % 2 ^ len

/-! ## Framer -/

/-- R146. -/
def Obligations.FflushEmptiesTheScanner : Prop :=
  (Encodes 0x50#8 fun _ _ _ _ => .fflush) ∧
  ∀ s : State, ∃ t, exec .fflush s = .next t ∧
    t = ({ s with rxlen := 0#9, fst := .hunt0 } : State).answer .ok 0#64 ∧
    ∀ a, exec (.ldb (.named .rxb) a) t = .next (t.raised .indexFault)

/-- R148 with R147: the eleven bytes, the checksum register, and no other byte of WB. -/
def Obligations.FreqBuildsTheRequest : Prop :=
  (Encodes 0x51#8 fun _ _ a d =>
    .freq (a.extractLsb' 0 8) (d.extractLsb' 0 8) (d.extractLsb' 8 8)) ∧
  ∀ (s : State) (addr kind1 kind2 : Byte), ∃ (c : BitVec 8) (m : Memory),
    c.toNat = (addr.toNat + 5 + 1 + addr.toNat + kind1.toNat + kind2.toNat) % 256 ∧
    (∀ j v, [0xAF#8, 0xFA#8, addr, 0x05#8, 0x01#8, addr, kind1, kind2, c, 0xAF#8, 0xA0#8][j]? =
      some v → m.read j = v) ∧
    (∀ j, 11 ≤ j → m.read j = s.wb.read j) ∧
    exec (.freq addr kind1 kind2) s =
      .next (({ s with wb := m, sum := c } : State).answer .ok (c.setWidth 64))

/-- R151, R152 and R155: FPUSH while hunting and while a frame is held. -/
def Obligations.FpushOutsideAFrame : Prop :=
  (Encodes 0x52#8 fun _ _ _ d => .fpush (d.extractLsb' 0 8)) ∧
  ∀ (s : State) (b : Byte),
    (s.fst = .hunt0 → exec (.fpush b) s = .next
      (if b = 0xAF#8 then ({ s with fst := .hunt1 } : State).answer .ok 1#64
      else s.answer .ok 0#64)) ∧
    (s.fst = .hunt1 → ∃ m, m.read 0 = 0xAF#8 ∧ m.read 1 = 0xFA#8 ∧
      (∀ j, 2 ≤ j → m.read j = s.rxb.read j) ∧
      exec (.fpush b) s = .next
        (if b = 0xFA#8 then
          ({ s with rxb := m, rxlen := 2#9, fst := .collect } : State).answer .ok 2#64
        else if b = 0xAF#8 then ({ s with fst := .hunt1 } : State).answer .ok 1#64
        else ({ s with fst := .hunt0 } : State).answer .ok 0#64)) ∧
    (s.fst = .ready → exec (.fpush b) s = .next (s.answer .busy 3#64))

/-- R153 and R154: one byte while collecting: stored behind the others, and when the count reaches
`RXB[3] + 6` the frame is accepted or silently dropped. -/
def Obligations.FpushCollecting : Prop :=
  ∀ (s : State) (b : Byte), s.fst = .collect → 2 ≤ s.rxlen.toNat → s.rxlen.toNat ≤ 260 →
    ∃ (m : Memory) (n : BitVec 9), n.toNat = s.rxlen.toNat + 1 ∧
      (∀ j, m.read j = if j = s.rxlen.toNat then b else s.rxb.read j) ∧
      exec (.fpush b) s = .next
        (if n.toNat < 4 ∨ n.toNat < (m.read 3).toNat + 6 then
          ({ s with rxb := m, rxlen := n } : State).answer .ok 2#64
        else if m.read ((m.read 3).toNat + 4) = 0xAF#8 ∧
            m.read ((m.read 3).toNat + 5) = 0xA0#8 then
          ({ s with rxb := m, rxlen := n, fst := .ready } : State).answer .ok 3#64
        else
          ({ s with rxb := m, rxlen := 0#9, fst := .hunt0,
                    esr := s.esr ||| 0x0400#16 } : State).answer .ok 0#64)

/-- R157's first consequence, its reading of the source's own property: a frame with a wrong footer is dropped
without a trace but `E_RESYNC`, and the good frame directly behind it is the one held. -/
def Obligations.ResyncKeepsTheNextFrame : Prop :=
  ∀ (s : State) (f1 f2 : List Byte), s.fst = .hunt0 → s.rxlen = 0#9 →
    Counted f1 → ¬FooterGood f1 → Counted f2 → FooterGood f2 →
    ∃ u t, feed f1 s = some u ∧ u.fst = .hunt0 ∧ u.rxlen = 0#9 ∧
      feed (f1 ++ f2) s = some t ∧
      t = { s with fst := .ready, rxlen := t.rxlen, rxb := t.rxb, esr := s.esr ||| 0x0400#16,
                   rsp := t.rsp } ∧
      t.rxlen.toNat = f2.length ∧ ∀ j v, f2[j]? = some v → t.rxb.read j = v

/-- R149, which the spec marks as derived: a request is well framed, and no response. -/
def Obligations.RequestPassesTheScannerOnly : Prop :=
  ∀ (s : State) (addr kind1 kind2 : Byte) (a : BitVec 32) (n : BitVec 16),
    s.fst = .hunt0 → s.rxlen = 0#9 →
    ∃ t u, exec (.freq addr kind1 kind2) s = .next t ∧
      ((t.wb.read 2).toNat + (t.wb.read 3).toNat + (t.wb.read 4).toNat + (t.wb.read 5).toNat +
        (t.wb.read 6).toNat + (t.wb.read 7).toNat) % 256 = (t.wb.read 8).toNat ∧
      (t.wb.read 3).toNat + 6 = 11 ∧
      feed (rangeOf t.wb 0 11) t = some u ∧ u.fst = .ready ∧ u.rxlen.toNat = 11 ∧
      exec (.fdec (.named .rxb) a n) u = .next (u.raised .feCommand)

/-- R160: the whole of FDEC, the frame `F` of `N` bytes being the held one for RXB and the given
bytes otherwise; R161's order of the checks; R165's byte order. -/
def Obligations.FdecValidatesAndUnpacks : Prop :=
  (Encodes 0x53#8 fun sel n a _ => .fdec (decodeSel Buf.ofNum sel) a n) ∧
  ∀ (s : State) (a : BitVec 32) (n : BitVec 16),
    (∀ v, exec (.fdec (.reserved v) a n) s = .next (s.raised .operandFault)) ∧
    ∀ b : Buf, ∀ (F : Nat → Byte) (N off : Nat), off = s.par.payloadOff →
      (F = fun j => (bufMem s b).read ((if b = .rxb then 0 else a.toNat) + j)) →
      (N = if b = .rxb then s.rxlen.toNat else n.toNat) →
      ∃ w : Vector (BitVec 16) 10,
        (∀ k : Fin 10, (w[k]).toNat =
          (F (off + 2 * k)).toNat * 256 + (F (off + 2 * k + 1)).toNat) ∧
        exec (.fdec (.named b) a n) s = .next
          (if b = .rxb ∧ s.fst ≠ .ready then s.answer .empty 0#64
          else if b ≠ .rxb ∧ 0 < n.toNat ∧ bufSize s b < a.toNat + n.toNat then
            s.raised .indexFault
          else if N < 9 then s.raised .feLength
          else if F 0 ≠ 0xAF#8 ∨ F 1 ≠ 0xFA#8 then s.raised .feHeader
          else if F (N - 2) ≠ 0xAF#8 ∨ F (N - 1) ≠ 0xA0#8 then s.raised .feFooter
          else if F 4 ≠ 0x03#8 then s.raised .feCommand
          else if N < off + 22 then s.raised .fePayload
          else ({ s with bmw := w, bmv := true } : State).answer .ok 0#64)

/-- The last sentence of R161, an inference the spec draws from R45: the frame the scanner holds never
fails the header or footer check. -/
def Obligations.HeldFrameIsWellFramed : Prop :=
  ∀ (s t : State) (a : BitVec 32) (n : BitVec 16) (f : EngFault) (r : BitVec 64), Inv s →
    exec (.fdec (.named .rxb) a n) s = .next t → t.rsp = some ⟨.raised f, r⟩ →
    f = .feLength ∨ f = .feCommand ∨ f = .fePayload

/-- R168 with R166: Current and Temp are signed, the other eight words are not. -/
def Obligations.FwordReadsADecodedWord : Prop :=
  (Encodes 0x54#8 fun _ _ a _ => .fword (decodeSel BmuWord.ofNum a)) ∧
  ∀ s : State,
    (∀ v, exec (.fword (.reserved v)) s = .next (s.raised .operandFault)) ∧
    ∀ a : BitVec 32,
      (10 ≤ a.toNat →
        exec (.fword (decodeSel BmuWord.ofNum a)) s = .next (s.raised .operandFault)) ∧
      ∀ h : a.toNat < 10, ∃ r : BitVec 64,
        (a.toNat = 1 ∨ a.toNat = 6 → r.toInt = (s.bmw[a.toNat]).toInt) ∧
        (¬(a.toNat = 1 ∨ a.toNat = 6) → r.toNat = (s.bmw[a.toNat]).toNat) ∧
        exec (.fword (decodeSel BmuWord.ofNum a)) s = .next
          (if s.bmv then s.answer .ok r else s.answer .empty 0#64)

/-! ## CAN unit -/

/-- R176. -/
def Obligations.CmdsetReplacesTheRecord : Prop :=
  (Encodes 0x60#8 fun _ n _ d =>
    .cmdset (d.extractLsb' 0 32) (d.extractLsb' 32 32) (n.extractLsb' 0 11)) ∧
  ∀ (s : State) (v c : BitVec 32) (flags : BitVec 11), exec (.cmdset v c flags) s =
    .next (({ s with cmdv := v, cmdi := c, cmdf := flags } : State).answer .ok 0#64)

/-- R179 with R178, R180 and R181: every bit of the control frame, the demands clamped as signed
integers. -/
def Obligations.CencBuildsTheControlFrame : Prop :=
  (Encodes 0x61#8 fun _ _ _ _ => .cenc) ∧
  ∀ s : State, ∃ m : Memory,
    m.le64.toNat = (max 0 (min s.cmdv.toInt 1048575)).toNat + (s.cmdf.getLsbD 0).toNat * 2 ^ 20 +
      (s.cmdf.getLsbD 1).toNat * 2 ^ 21 + (s.cmdf.toNat / 4) * 2 ^ 22 +
      (max 0 (min s.cmdi.toInt 262143)).toNat * 2 ^ 32 ∧
    (∀ j, 8 ≤ j → m.read j = 0#8) ∧
    exec .cenc s = .next
      (({ s with cb := m, cid := s.par.ctrlId, cdlc := 8#4 } : State).answer .ok m.le64)

/-- R184: power disabled and current zero whatever the command registers hold, and they keep what
they hold. -/
def Obligations.CencoffForcesPowerOff : Prop :=
  (Encodes 0x62#8 fun _ _ _ _ => .cencoff) ∧
  ∀ s : State, ∃ m : Memory,
    m.le64.toNat = (max 0 (min s.cmdv.toInt 1048575)).toNat +
      (s.cmdf.getLsbD 1).toNat * 2 ^ 21 + (s.cmdf.toNat / 4) * 2 ^ 22 ∧
    (∀ j, 8 ≤ j → m.read j = 0#8) ∧
    exec .cencoff s = .next
      (({ s with cb := m, cid := s.par.ctrlId, cdlc := 8#4 } : State).answer .ok m.le64)

/-- R182: the five fields read back exactly. -/
def Obligations.ControlFrameReadsBack : Prop :=
  ∀ s : State, ∃ t, exec .cenc s = .next t ∧
    (bfGet t.cb 0 20).toInt = max 0 (min s.cmdv.toInt 1048575) ∧
    bfGet t.cb 20 1 = (s.cmdf.extractLsb' 0 1).setWidth 64 ∧
    bfGet t.cb 21 1 = (s.cmdf.extractLsb' 1 1).setWidth 64 ∧
    bfGet t.cb 22 9 = (s.cmdf.extractLsb' 2 9).setWidth 64 ∧
    (bfGet t.cb 32 18).toInt = max 0 (min s.cmdi.toInt 262143)

/-- R186: identifier masked to 11 bits, bytes at or above the length zero. -/
def Obligations.CldLoadsAFrame : Prop :=
  (Encodes 0x63#8 fun _ n a d => .cld a n d) ∧
  ∀ (s : State) (id : BitVec 32) (dlc : BitVec 16) (payload : BitVec 64),
    ∃ (m : Memory) (c : BitVec 11) (l : BitVec 4), c.toNat = id.toNat % 2048 ∧
      (dlc.toNat ≤ 8 → l.toNat = dlc.toNat) ∧
      (∀ j, m.read j = if j < dlc.toNat then payload.extractLsb' (8 * j) 8 else 0#8) ∧
      exec (.cld id dlc payload) s = .next
        (if 8 < dlc.toNat then s.raised .operandFault
        else ({ s with cid := c, cdlc := l, cb := m } : State).answer .ok 0#64)

/-- R188 with R57. -/
def Obligations.CrdReadsThePayload : Prop :=
  (Encodes 0x64#8 fun _ _ _ _ => .crd) ∧
  ∀ s : State, ∃ r : BitVec 64, exec .crd s = .next (s.answer .ok r) ∧
    ∀ j, j < 8 → r.extractLsb' (8 * j) 8 = s.cb.read j

/-- R192 with R190 and R194: the first matching entry alone decides; on OK one record is replaced
whole and no other touched. -/
def Obligations.CdecReplacesOneRecord : Prop :=
  (Encodes 0x65#8 fun _ _ _ _ => .cdec) ∧
  ∀ s : State,
    match s.par.idTab.find? (fun e => decide (s.cid &&& e.mask = e.id)) with
    | none => exec .cdec s = .next (s.answer .ignored 0#64)
    | some e =>
      if s.cdlc.toNat < e.minlen then exec .cdec s = .next (s.answer .ignored 0#64)
      else ∃ tel : Vector TelRecord 13,
        tel[e.kind.num] = ⟨s.cb, true⟩ ∧
        (∀ k : Fin 13, k ≠ e.kind.num → tel[k] = s.tel[k]) ∧
        exec .cdec s = .next (({ s with tel := tel, tchg := true } : State).answer .ok
          (BitVec.ofNat 64 e.kind.num.val))

/-- R196: operand tests, then range, then EMPTY, then the unsigned field of the latched payload. -/
def Obligations.TfldReadsARecord : Prop :=
  (Encodes 0x66#8 fun sel n a _ => .tfld (decodeSel Kind.ofNum sel) a n) ∧
  ∀ (s : State) (a : BitVec 32) (n : BitVec 16),
    (∀ v, exec (.tfld (.reserved v) a n) s = .next (s.raised .operandFault)) ∧
    ∀ k : Kind, ∃ r : BitVec 64,
      (n.toNat ≤ 64 →
        ∀ i, r.getLsbD i = (decide (i < n.toNat) && bitOf (s.tel[k.num]).raw (a.toNat + i))) ∧
      exec (.tfld (.named k) a n) s = .next
        (if 64 < n.toNat then s.raised .operandFault
        else if 0 < n.toNat ∧ 64 < a.toNat + n.toNat then s.raised .indexFault
        else if (s.tel[k.num]).valid then s.answer .ok r
        else s.answer .empty 0#64)

/-- R198. -/
def Obligations.TackReturnsAndClears : Prop :=
  (Encodes 0x67#8 fun _ _ _ _ => .tack) ∧
  ∀ s : State, ∃ r : BitVec 64, r.toNat = (if s.tchg then 1 else 0) ∧
    exec .tack s = .next (({ s with tchg := false } : State).answer .ok r)

/-- Derived from R186, R192 and R196: a received frame of a known identifier, loaded, dispatched and read
back whole, is the payload with the bytes at or above its length zero. -/
def Obligations.ReceivedFrameReadsBack : Prop :=
  ∀ (s : State) (id : BitVec 32) (dlc : BitVec 16) (payload : BitVec 64) (e : IdEntry),
    s.par.idTab.find? (fun e => decide (id.extractLsb' 0 11 &&& e.mask = e.id)) = some e →
    dlc.toNat ≤ 8 → e.minlen ≤ dlc.toNat →
    ∃ t u w r, exec (.cld id dlc payload) s = .next t ∧ exec .cdec t = .next u ∧
      exec (.tfld (.named e.kind) 0#32 64#16) u = .next w ∧ w.rsp = some ⟨.ok, r⟩ ∧
      r.toNat = payload.toNat % 2 ^ (8 * dlc.toNat)

/-! ## The whole machine -/

/-- R225: for every state and every command word one next state and one response, of one of three
classes by its code: OK; a non-fault outcome (EMPTY, BUSY, IGNORED), which changes no state; a fault.
The engine never stops. -/
def Obligations.EveryOperationAnswers : Prop :=
  (∀ (s : State) (w : CmdWord) (rest : List Input), s.port = .command w :: rest →
    ∃ t x, step s = .next t ∧ t.rsp = some x ∧
      (x.st.code.toNat = 0x00 ∨
        (0x01 ≤ x.st.code.toNat ∧ x.st.code.toNat ≤ 0x0F ∧
          t = ({ s with port := rest } : State).answer x.st x.r) ∨
        (0x10 ≤ x.st.code.toNat ∧
          ∃ f, t = ({ s with port := rest } : State).raised f))) ∧
  (∀ (i : Instr) (s : State), ∃ t, exec i s = .next t) ∧
  ∀ s : State, ∃ t, step s = .next t

/-- R230, with the ESR bits and codes of R226: after a fault the state is the state before with one
more sticky bit, and the result is zero. -/
def Obligations.FaultsArePrecise : Prop :=
  (∀ (s t : State) (w : CmdWord) (rest : List Input) (f : EngFault) (r : BitVec 64),
    s.port = .command w :: rest → step s = .next t → t.rsp = some ⟨.raised f, r⟩ →
    r = 0#64 ∧
      t = { s with port := rest, esr := s.esr ||| (1#16 <<< f.esrBit), rsp := t.rsp }) ∧
  [EngFault.illegalOp, .operandFault, .indexFault, .feLength, .feHeader, .feFooter, .feCommand,
      .fePayload, .feMbLen, .feCrc].map (fun f => (f.esrBit, f.code)) =
    [(0, 0x10#8), (1, 0x11#8), (2, 0x12#8), (3, 0x20#8), (4, 0x21#8), (5, 0x22#8), (6, 0x23#8),
      (7, 0x24#8), (8, 0x28#8), (9, 0x29#8)]

/-- The last sentence of R226, on the sixteen operations that can never fault: each completes with a
status below the fault codes in every state. -/
def Obligations.SixteenOperationsNeverFault : Prop :=
  ∀ (i : Instr) (s : State),
    opcode i ∈ [0x00#8, 0x01#8, 0x03#8, 0x20#8, 0x21#8, 0x30#8, 0x31#8, 0x50#8, 0x51#8, 0x52#8,
      0x60#8, 0x61#8, 0x62#8, 0x64#8, 0x65#8, 0x67#8] →
    ∃ t st r, exec i s = .next t ∧ t.rsp = some ⟨st, r⟩ ∧ st.code.toNat < 0x10

/-- Derived from R231 and R32: no operation's behaviour depends on ESR (RDR of ESR and ECLR return its value and
are left out), and a set bit stays set until ECLR or SRST. -/
def Obligations.NoOperationDependsOnEsr : Prop :=
  (∀ (i : Instr) (s t : State) (e : BitVec 16), i ≠ .rdr (.named .esr) → (∀ m, i ≠ .eclr m) →
    exec i s = .next t → ∃ e', exec i { s with esr := e } = .next { t with esr := e' }) ∧
  ∀ (i : Instr) (s t : State), opcode i ∉ [0x01#8, 0x03#8] → exec i s = .next t →
    ∀ k, s.esr.getLsbD k = true → t.esr.getLsbD k = true

/-- Derived from R24, R25, R30, R31, R33 and the operations' rules: who changes the accumulators, the command
registers, the decoded words and the CAN header. -/
def Obligations.RegistersHaveOnlyTheirWriters : Prop :=
  ∀ (i : Instr) (s t : State), exec i s = .next t →
    (opcode i ∉ [0x01#8, 0x20#8, 0x21#8, 0x22#8, 0x23#8, 0x24#8] → t.crc = s.crc) ∧
    (opcode i ∉ [0x01#8, 0x30#8, 0x31#8, 0x32#8, 0x51#8] → t.sum = s.sum) ∧
    (opcode i ∉ [0x01#8, 0x60#8] → t.cmdv = s.cmdv ∧ t.cmdi = s.cmdi ∧ t.cmdf = s.cmdf) ∧
    (opcode i ∉ [0x01#8, 0x61#8, 0x62#8, 0x63#8] → t.cid = s.cid ∧ t.cdlc = s.cdlc) ∧
    (opcode i ≠ 0x53#8 → t.bmw = s.bmw ∧ (opcode i ≠ 0x01#8 → t.bmv = s.bmv))

/-- Derived from R26, R27, R30, R39, R40, R53 and the operations' rules: who changes the buffers, the scanner and the records. -/
def Obligations.BuffersHaveOnlyTheirWriters : Prop :=
  ∀ (i : Instr) (s t : State), exec i s = .next t →
    (opcode i ≠ 0x52#8 → t.rxb = s.rxb) ∧
    (opcode i ∉ [0x01#8, 0x50#8, 0x52#8] → t.rxlen = s.rxlen ∧ t.fst = s.fst) ∧
    (opcode i ∉ [0x11#8, 0x23#8, 0x41#8, 0x51#8] → t.wb = s.wb) ∧
    (opcode i ∉ [0x01#8, 0x11#8, 0x23#8, 0x41#8, 0x61#8, 0x62#8, 0x63#8] → t.cb = s.cb) ∧
    (opcode i ∉ [0x01#8, 0x65#8] → t.tel = s.tel) ∧
    (opcode i ∉ [0x01#8, 0x65#8, 0x67#8] → t.tchg = s.tchg)

/-- Derived from R43, with the model's own `par` and `port` (log entries 1 and 2): no step changes a
parameter, and no operation changes what the outside presents next. -/
def Obligations.ParametersAndProgramAreOutOfReach : Prop :=
  (∀ (i : Instr) (s t : State), exec i s = .next t → t.port = s.port) ∧
  ∀ s t : State, step s = .next t → t.par = s.par ∧ t.port = s.port.tail

/-- A step runs the decoded operation; a word that is no operation answers ILLEGAL_OP (R79); with
nothing presented the engine holds its state (R244). The port a command stands in is the model's own
(log entry 1). -/
def Obligations.StepRunsTheDecodedOperation : Prop :=
  ∀ (s : State) (w : CmdWord) (rest : List Input),
    (s.port = .command w :: rest →
      (∀ i, decode w = .ok i → step s = exec i { s with port := rest }) ∧
      (∀ x, decode w = .error x →
        step s = .next (({ s with port := rest } : State).raised .illegalOp))) ∧
    (s.port = [] → step s = .next s) ∧
    ∀ i, decode w = .ok i → step (s.withFetchWord 128 w.toNat) = exec i s

/-! ## Encoding -/

/-- R79: the illegal opcodes, which answer ILLEGAL_OP and change nothing else; every other word is a
well-formed operation with that opcode. -/
def Obligations.DecodeIsTotal : Prop :=
  ∀ w : CmdWord,
    (IllegalOpcode (opField w).toNat → decode w = .error (.illegalOp (opField w)) ∧
      ∀ (s : State) (rest : List Input), s.port = .command w :: rest →
        step s = .next (({ s with port := rest } : State).raised .illegalOp)) ∧
    (¬IllegalOpcode (opField w).toNat →
      ∃ i, decode w = .ok i ∧ i.wf = true ∧ opcode i = opField w)

/-- Derived from the encoding tables (R70, R71, R76 to R80): decode and encode agree, for every well-formed operation and every value of its operands. -/
def Obligations.DecodeOfEncode : Prop :=
  ∀ i : Instr, i.wf = true →
    decode (encode i) = .ok i ∧ decodeTableWord 128 (encode i).toNat = some i

/-- A few words of the programs in spec/95_test_vectors.md. -/
def Obligations.DecodeKnownWords : Prop :=
  decode 0x410200080000003C00000000000000FF#128 = .ok (.bfset (.named .cb) 60#32 8#16 0xFF#64) ∧
  decode 0x51EEBEEFFFFFFF01FFFFFFFFFFFF2010#128 = .ok (.freq 0x01#8 0x10#8 0x20#8) ∧
  decode 0x6000000500000000000027100000BB80#128 = .ok (.cmdset 48000#32 10000#32 5#11) ∧
  decode 0x66010012000000140000000000000000#128 = .ok (.tfld (.named .power) 20#32 18#16) ∧
  decode 0x7F010002000000030000000000000004#128 = .error (.illegalOp 0x7F#8)

/-! ## Invariants -/

/-- R45, which the spec marks as derived, with the canonical form of the buffers that is the model's
own (log entry 4): every step keeps the invariants, from every state that has them. -/
def Obligations.StepKeepsTheInvariants : Prop :=
  ∀ s t : State, Inv s → step s = .next t → Inv t

/-- The invariants of R45 and of the canonical form (log entry 4) hold after a power-on reset, with WB
at any bytes (log entry 5). -/
def Obligations.ResetHasTheInvariants : Prop :=
  Inv State.reset ∧ ∀ (wb : List Byte) (s : State), Inv (powerOn wb s)

/-- Derived from R225 and R45, over runs of any length, from every state that has the invariants. -/
def Obligations.RunsAreSafe : Prop :=
  ∀ s : State, Inv s → SafeRun s
end

