-- ==== Sys2Proof/Laws/Memory.lean ====
section
/-! SUPPORT. What the buffer operations do to the bytes one reads, and that each keeps the canonical
form and the buffer's bound. -/

namespace Sys2Proof.Machine

/-! ### Reading -/

@[simp] theorem Memory.read_nil (j : Nat) : Memory.read [] j = 0#8 := rfl

theorem Memory.read_erase (m : Memory) (i j : Nat) :
    (m.erase i).read j = if j = i then 0#8 else m.read j := by
  induction m with
  | nil => simp [Memory.erase]
  | cons x m ih =>
    obtain ⟨b, w⟩ := x
    by_cases hb : b = i
    · simp only [Memory.erase, hb, if_true, ih, Memory.read]
      by_cases hj : j = i
      · simp [hj]
      · simp [hj, Ne.symm hj]
    · simp only [Memory.erase, hb, if_false, Memory.read, ih]
      by_cases hj : b = j
      · have hji : ¬j = i := by omega
        simp [hj, hji]
      · simp [hj]

theorem Memory.read_insert (m : Memory) (i j : Nat) (v : Byte) (h : m.erase i = m) :
    (m.insert i v).read j = if j = i then v else m.read j := by
  induction m with
  | nil => simp [Memory.insert, Memory.read, unlisted, eq_comm]
  | cons x m ih =>
    obtain ⟨b, w⟩ := x
    by_cases hb : b = i
    · exfalso
      simp only [Memory.erase, hb, if_true] at h
      have hl : ∀ m : Memory, (m.erase i).length ≤ m.length := by
        intro m
        induction m with
        | nil => simp [Memory.erase]
        | cons y m ih => obtain ⟨c, u⟩ := y; simp only [Memory.erase]; split <;> simp <;> omega
      have := hl m
      rw [h] at this
      simp at this
    · simp only [Memory.erase, hb, if_false, List.cons.injEq, true_and] at h
      simp only [Memory.insert]
      split
      · simp only [Memory.read, eq_comm (a := i)]
      · simp only [Memory.read, ih h]
        by_cases hj : b = j
        · have : ¬j = i := by omega
          simp [hj, this]
        · simp [hj]

theorem Memory.erase_erase (m : Memory) (i : Nat) : (m.erase i).erase i = m.erase i := by
  induction m with
  | nil => rfl
  | cons x m ih =>
    obtain ⟨b, w⟩ := x
    by_cases hb : b = i <;> simp [Memory.erase, hb, ih]

/-- ALL that a write does to what one reads, in every memory: the byte written, and no other. -/
theorem Memory.read_write (m : Memory) (i j : Nat) (v : Byte) :
    (m.write i v).read j = if j = i then v else m.read j := by
  unfold Memory.write
  split
  · next h => rw [Memory.read_erase, h]; rfl
  · rw [Memory.read_insert _ _ _ _ (Memory.erase_erase m i), Memory.read_erase]
    by_cases hj : j = i <;> simp [hj]

@[simp] theorem Memory.read_write_same (m : Memory) (i : Nat) (v : Byte) :
    (m.write i v).read i = v := by simp [Memory.read_write]

theorem Memory.read_write_other (m : Memory) {i j : Nat} (v : Byte) (h : j ≠ i) :
    (m.write i v).read j = m.read j := by simp [Memory.read_write, h]

/-- ALL that writing a byte sequence does to what one reads. -/
theorem Memory.read_writeBytes (m : Memory) (i j : Nat) (vs : List Byte) :
    (m.writeBytes i vs).read j =
      if i ≤ j then (vs[j - i]?).getD (m.read j) else m.read j := by
  induction vs generalizing m i with
  | nil => simp [Memory.writeBytes]
  | cons v vs ih =>
    simp only [Memory.writeBytes, ih, Memory.read_write]
    rcases Nat.lt_trichotomy j i with h | h | h
    · have h1 : ¬i + 1 ≤ j := by omega
      have h2 : ¬i ≤ j := by omega
      have h3 : ¬j = i := by omega
      simp [h1, h2, h3]
    · subst h; simp
    · have h1 : i + 1 ≤ j := by omega
      have h2 : i ≤ j := by omega
      have h3 : ¬j = i := by omega
      have h4 : j - i = (j - (i + 1)) + 1 := by omega
      simp [h1, h2, h3, h4]

/-- The byte sequence of a range, by its indices. -/
theorem Memory.bytes_eq (m : Memory) (i n : Nat) :
    m.bytes i n = (List.range n).map fun k => m.read (i + k) := by
  induction n generalizing i with
  | zero => rfl
  | succ n ih =>
    simp only [Memory.bytes, ih, List.range_succ_eq_map, List.map_cons, List.map_map]
    simp [Function.comp_def, Nat.add_assoc, Nat.add_comm 1]

@[simp] theorem Memory.bytes_length (m : Memory) (i n : Nat) : (m.bytes i n).length = n := by
  simp [Memory.bytes_eq]

/-- Memories that read alike on a range have the same bytes there. -/
theorem Memory.bytes_congr {m m' : Memory} (i n : Nat)
    (h : ∀ k, k < n → m.read (i + k) = m'.read (i + k)) : m.bytes i n = m'.bytes i n := by
  simp only [Memory.bytes_eq]
  exact List.map_congr_left fun k hk => h k (by simpa using hk)

/-! ### The canonical form -/

theorem Memory.wfFrom_mono {lo lo' : Nat} {m : Memory} (h : Memory.wfFrom lo m = true)
    (hl : lo' ≤ lo) : Memory.wfFrom lo' m = true := by
  cases m with
  | nil => rfl
  | cons x m =>
    obtain ⟨b, w⟩ := x
    simp only [Memory.wfFrom, Bool.and_eq_true, decide_eq_true_eq] at h ⊢
    exact ⟨⟨by omega, h.1.2⟩, h.2⟩

theorem Memory.wfFrom_erase {lo : Nat} {m : Memory} (i : Nat) (h : Memory.wfFrom lo m = true) :
    Memory.wfFrom lo (m.erase i) = true := by
  induction m generalizing lo with
  | nil => rfl
  | cons x m ih =>
    obtain ⟨b, w⟩ := x
    simp only [Memory.wfFrom, Bool.and_eq_true, decide_eq_true_eq] at h
    by_cases hb : b = i
    · simp only [Memory.erase, hb, if_true]
      exact Memory.wfFrom_mono (ih h.2) (by omega)
    · simp only [Memory.erase, hb, if_false, Memory.wfFrom, Bool.and_eq_true, decide_eq_true_eq]
      exact ⟨h.1, ih h.2⟩

theorem Memory.wfFrom_insert {lo : Nat} {m : Memory} {i : Nat} {v : Byte}
    (h : Memory.wfFrom lo m = true) (hi : lo ≤ i) (hv : v ≠ unlisted) (he : m.erase i = m) :
    Memory.wfFrom lo (m.insert i v) = true := by
  induction m generalizing lo with
  | nil => simp [Memory.insert, Memory.wfFrom, hi, hv]
  | cons x m ih =>
    obtain ⟨b, w⟩ := x
    simp only [Memory.wfFrom, Bool.and_eq_true, decide_eq_true_eq] at h
    by_cases hb : b = i
    · exfalso
      subst hb
      have hw := congrArg (fun m => Memory.read m b) he
      rw [show (Memory.erase ((b, w) :: m) b).read b = 0#8 by simp [Memory.read_erase]] at hw
      simp only [Memory.read, if_true] at hw
      exact h.1.2 hw.symm
    · simp only [Memory.erase, hb, if_false, List.cons.injEq, true_and] at he
      simp only [Memory.insert]
      split
      · next hlt =>
        simp only [Memory.wfFrom, Bool.and_eq_true, decide_eq_true_eq]
        exact ⟨⟨hi, hv⟩, ⟨by omega, h.1.2⟩, h.2⟩
      · next hlt =>
        simp only [Memory.wfFrom, Bool.and_eq_true, decide_eq_true_eq]
        exact ⟨h.1, ih h.2 (by omega) he⟩

/-- A write keeps the canonical form. -/
theorem Memory.wf_write {m : Memory} (i : Nat) (v : Byte) (h : m.wf = true) :
    (m.write i v).wf = true := by
  unfold Memory.write Memory.wf at *
  split
  · exact Memory.wfFrom_erase i h
  · next hv =>
    exact Memory.wfFrom_insert (Memory.wfFrom_erase i h) (Nat.zero_le i) hv (Memory.erase_erase m i)

theorem Memory.within_erase {m : Memory} {size : Nat} (i : Nat) (h : m.within size = true) :
    (m.erase i).within size = true := by
  induction m with
  | nil => rfl
  | cons x m ih =>
    obtain ⟨b, w⟩ := x
    simp only [Memory.within, Bool.and_eq_true, decide_eq_true_eq] at h
    by_cases hb : b = i
    · simpa [Memory.erase, hb] using ih h.2
    · simp only [Memory.erase, hb, if_false, Memory.within, Bool.and_eq_true, decide_eq_true_eq]
      exact ⟨h.1, ih h.2⟩

theorem Memory.within_insert {m : Memory} {size i : Nat} (v : Byte) (h : m.within size = true)
    (hi : i < size) : (m.insert i v).within size = true := by
  induction m with
  | nil => simp [Memory.insert, Memory.within, hi]
  | cons x m ih =>
    obtain ⟨b, w⟩ := x
    simp only [Memory.within, Bool.and_eq_true, decide_eq_true_eq] at h
    simp only [Memory.insert]
    split
    · simp [Memory.within, hi, h]
    · simp only [Memory.within, Bool.and_eq_true, decide_eq_true_eq]
      exact ⟨h.1, ih h.2⟩

/-- A write inside the buffer keeps the buffer's bound. -/
theorem Memory.within_write {m : Memory} {size i : Nat} (v : Byte) (h : m.within size = true)
    (hi : i < size) : (m.write i v).within size = true := by
  unfold Memory.write
  split
  · exact Memory.within_erase i h
  · exact Memory.within_insert v (Memory.within_erase i h) hi

/-- Writing a byte sequence keeps the canonical form. -/
theorem Memory.wf_writeBytes {m : Memory} (i : Nat) (vs : List Byte) (h : m.wf = true) :
    (m.writeBytes i vs).wf = true := by
  induction vs generalizing m i with
  | nil => exact h
  | cons v vs ih => exact ih _ (Memory.wf_write i v h)

/-- Writing a byte sequence inside the buffer keeps the buffer's bound. -/
theorem Memory.within_writeBytes {m : Memory} {size : Nat} (i : Nat) (vs : List Byte)
    (h : m.within size = true) (hi : i + vs.length ≤ size) :
    (m.writeBytes i vs).within size = true := by
  induction vs generalizing m i with
  | nil => exact h
  | cons v vs ih =>
    simp only [List.length_cons] at hi
    exact ih _ (Memory.within_write v h (by omega)) (by omega)

/-- A byte at or above the bound reads as unlisted. -/
theorem Memory.read_of_within {m : Memory} {size j : Nat} (h : m.within size = true)
    (hj : size ≤ j) : m.read j = 0#8 := by
  induction m with
  | nil => rfl
  | cons x m ih =>
    obtain ⟨b, w⟩ := x
    simp only [Memory.within, Bool.and_eq_true, decide_eq_true_eq] at h
    have : ¬b = j := by omega
    simp [Memory.read, this, ih h.2]

theorem Memory.read_of_wfFrom {lo j : Nat} {m : Memory} (h : Memory.wfFrom lo m = true)
    (hj : j < lo) : m.read j = 0#8 := by
  induction m generalizing lo with
  | nil => rfl
  | cons x m ih =>
    obtain ⟨b, w⟩ := x
    simp only [Memory.wfFrom, Bool.and_eq_true, decide_eq_true_eq] at h
    have : ¬b = j := by omega
    simp [Memory.read, this, ih h.2 (by omega)]

theorem Memory.ext_wfFrom {lo lo' : Nat} {m m' : Memory} (h : Memory.wfFrom lo m = true)
    (h' : Memory.wfFrom lo' m' = true) (hr : ∀ j, m.read j = m'.read j) : m = m' := by
  induction m generalizing lo lo' m' with
  | nil =>
    cases m' with
    | nil => rfl
    | cons y m' =>
      obtain ⟨c, u⟩ := y
      simp only [Memory.wfFrom, Bool.and_eq_true, decide_eq_true_eq] at h'
      have := hr c
      simp only [Memory.read, if_true] at this
      exact absurd this.symm h'.1.2
  | cons x m ih =>
    obtain ⟨b, w⟩ := x
    simp only [Memory.wfFrom, Bool.and_eq_true, decide_eq_true_eq] at h
    cases m' with
    | nil =>
      have := hr b
      simp only [Memory.read, if_true] at this
      exact absurd this h.1.2
    | cons y m' =>
      obtain ⟨c, u⟩ := y
      simp only [Memory.wfFrom, Bool.and_eq_true, decide_eq_true_eq] at h'
      have hbc : b = c := by
        rcases Nat.lt_trichotomy b c with hlt | heq | hgt
        · have h1 := hr b
          have h2 : ¬c = b := by omega
          simp only [Memory.read, if_true, h2, if_false] at h1
          rw [Memory.read_of_wfFrom h'.2 (by omega)] at h1
          exact absurd h1 h.1.2
        · exact heq
        · have h1 := hr c
          have h2 : ¬b = c := by omega
          simp only [Memory.read, if_true, h2, if_false] at h1
          rw [Memory.read_of_wfFrom h.2 (by omega)] at h1
          exact absurd h1.symm h'.1.2
      subst hbc
      have hw := hr b
      simp only [Memory.read, if_true] at hw
      have ht : m = m' := by
        refine ih h.2 h'.2 fun j => ?_
        by_cases hj : b = j
        · rw [Memory.read_of_wfFrom h.2 (by omega), Memory.read_of_wfFrom h'.2 (by omega)]
        · have := hr j
          simpa only [Memory.read, hj, if_false] using this
      rw [hw, ht]

/-- Canonical memories that read alike are equal. -/
theorem Memory.ext_of_wf {m m' : Memory} (h : m.wf = true) (h' : m'.wf = true)
    (hr : ∀ j, m.read j = m'.read j) : m = m' := Memory.ext_wfFrom h h' hr

/-! ### The canonical form under the codec and the frame load -/

theorem Memory.wf_setBit {m : Memory} (p : Nat) (x : Bool) (h : m.wf = true) :
    (m.setBit p x).wf = true := Memory.wf_write _ _ h

theorem Memory.within_setBit {m : Memory} {size p : Nat} (x : Bool) (h : m.within size = true)
    (hp : p < 8 * size) : (m.setBit p x).within size = true :=
  Memory.within_write _ h (by omega)

/-- `bf_set` keeps the canonical form. -/
theorem wf_bfSet {m : Memory} (start len : Nat) (v : BitVec 64) (h : m.wf = true) :
    (bfSet m start len v).wf = true := by
  induction len with
  | zero => exact h
  | succ len ih => exact Memory.wf_setBit _ _ ih

/-- `bf_set` inside the buffer keeps the buffer's bound. -/
theorem within_bfSet {m : Memory} {size start len : Nat} (v : BitVec 64)
    (h : m.within size = true) (hl : len = 0 ∨ start + len ≤ 8 * size) :
    (bfSet m start len v).within size = true := by
  induction len with
  | zero => exact h
  | succ len ih => exact Memory.within_setBit _ (ih (by omega)) (by omega)

theorem wf_payloadBytes (d : BitVec 64) (n : Nat) : (payloadBytes d n).wf = true := by
  induction n with
  | zero => rfl
  | succ n ih => exact Memory.wf_write _ _ ih

theorem within_payloadBytes (d : BitVec 64) (n : Nat) : (payloadBytes d n).within n = true := by
  have h : ∀ k, k ≤ n → (payloadBytes d k).within n = true := by
    intro k
    induction k with
    | zero => intro _; rfl
    | succ k ih => intro hk; exact Memory.within_write _ (ih (by omega)) (by omega)
  exact h n (le_refl n)

/-- ALL the bytes of a loaded payload (R186). -/
theorem read_payloadBytes (d : BitVec 64) (n j : Nat) :
    (payloadBytes d n).read j = if j < n then d.extractLsb' (8 * j) 8 else 0#8 := by
  induction n with
  | zero => simp [payloadBytes]
  | succ n ih =>
    simp only [payloadBytes, Memory.read_write, ih]
    rcases Nat.lt_trichotomy j n with h | h | h
    · have h1 : ¬j = n := by omega
      have h2 : j < n + 1 := by omega
      simp [h, h1, h2]
    · subst h; simp
    · have h1 : ¬j = n := by omega
      have h2 : ¬j < n + 1 := by omega
      have h3 : ¬j < n := by omega
      simp [h1, h2, h3]

end Sys2Proof.Machine
end

