-- ==== Sys2Proof/Laws/Codec.lean ====
section
/-! SUPPORT. What the bit-field codec does, bit by bit (spec/40_bitfield.md R100, R101), and the bits
of LE64 (spec/20_memory.md R57). -/

namespace Sys2Proof.Machine

/-- The bits of a byte with one bit replaced. -/
theorem getLsbD_byteWithBit (v : Byte) (k i : Nat) (x : Bool) (hk : k < 8) :
    (byteWithBit v k x).getLsbD i = if i = k then x else v.getLsbD i := by
  unfold byteWithBit
  by_cases hi : i < 8
  · have hm : (1#8 <<< k).getLsbD i = decide (i = k) := by
      simp only [BitVec.getLsbD_shiftLeft, BitVec.getLsbD_one, hi, decide_true, Bool.true_and]
      by_cases h : i = k
      · subst h; simp
      · by_cases h2 : i < k
        · simp [h2, h]
        · have : ¬i - k = 0 := by omega
          simp [h2, h, this]
    cases x
    · rw [if_neg (by decide), BitVec.getLsbD_and, BitVec.getLsbD_not, hm]
      by_cases h : i = k <;> simp [h, hi]
    · rw [if_pos rfl, BitVec.getLsbD_or, hm]
      by_cases h : i = k <;> simp [h]
  · have h : ¬i = k := by omega
    have h8 : 8 ≤ i := by omega
    rw [if_neg h]
    split <;> simp [BitVec.getLsbD_of_ge _ _ h8]

/-- ALL that replacing one bit does to the bits of a buffer. -/
theorem Memory.bit_setBit (m : Memory) (p q : Nat) (x : Bool) :
    (m.setBit p x).bit q = if q = p then x else m.bit q := by
  unfold Memory.bit Memory.setBit
  rw [Memory.read_write]
  by_cases hb : q / 8 = p / 8
  · rw [if_pos hb, getLsbD_byteWithBit _ _ _ _ (Nat.mod_lt _ (by omega)), hb]
    by_cases h : q = p
    · simp [h]
    · have : ¬q % 8 = p % 8 := by omega
      simp [h, this]
  · have h : ¬q = p := by intro h; exact hb (by rw [h])
    simp [hb, h]

/-- Replacing a bit leaves the other bytes alone. -/
theorem Memory.read_setBit_other (m : Memory) {p j : Nat} (x : Bool) (h : j ≠ p / 8) :
    (m.setBit p x).read j = m.read j := Memory.read_write_other m _ h

/-- ALL the bits of `bf_get` (R100). -/
theorem getLsbD_bfGet (m : Memory) (start len i : Nat) (hl : len ≤ 64) :
    (bfGet m start len).getLsbD i = (decide (i < len) && m.bit (start + i)) := by
  induction len with
  | zero => simp [bfGet]
  | succ len ih =>
    have h1 : (if m.bit (start + len) then 1#64 <<< len else 0#64).getLsbD i =
        (decide (i = len) && m.bit (start + len)) := by
      split
      · next h =>
        simp only [BitVec.getLsbD_shiftLeft, BitVec.getLsbD_one, h, Bool.and_true]
        by_cases hi : i = len
        · subst hi; simp; omega
        · by_cases h2 : i < len
          · simp [h2, hi]
          · have : ¬i - len = 0 := by omega
            simp [hi, this]
      · next h => simp [h]
    rw [bfGet, BitVec.getLsbD_or, ih (by omega), h1]
    by_cases hi : i = len
    · subst hi; simp
    · by_cases h2 : i < len
      · have : i < len + 1 := by omega
        simp [hi, h2, this]
      · have : ¬i < len + 1 := by omega
        simp [hi, h2, this]

/-- ALL that `bf_set` does to the bits of a buffer (R101, R102). -/
theorem bit_bfSet (m : Memory) (start len q : Nat) (v : BitVec 64) :
    (bfSet m start len v).bit q =
      if start ≤ q ∧ q < start + len then v.getLsbD (q - start) else m.bit q := by
  induction len with
  | zero => rw [if_neg (by omega), bfSet]
  | succ len ih =>
    rw [bfSet, Memory.bit_setBit, ih]
    by_cases hq : q = start + len
    · subst hq
      have : start ≤ start + len ∧ start + len < start + (len + 1) := by omega
      simp [this]
    · by_cases h : start ≤ q ∧ q < start + len
      · have h2 : start ≤ q ∧ q < start + (len + 1) := by omega
        simp [hq, h, h2]
      · have h2 : ¬(start ≤ q ∧ q < start + (len + 1)) := by omega
        rw [if_neg hq, if_neg h, if_neg h2]

/-- A byte from its bits. -/
theorem Memory.read_eq_of_bits {m m' : Memory} {j : Nat}
    (h : ∀ i, i < 8 → m.bit (8 * j + i) = m'.bit (8 * j + i)) : m.read j = m'.read j := by
  apply BitVec.eq_of_getLsbD_eq
  intro i hi
  have := h i hi
  unfold Memory.bit at this
  have h1 : (8 * j + i) / 8 = j := by omega
  have h2 : (8 * j + i) % 8 = i := by omega
  rwa [h1, h2] at this

/-- The bits of LE64: payload bit `p` is bit `p` of the 64-bit value (R57). -/
theorem Memory.getLsbD_le64 (m : Memory) (p : Nat) (hp : p < 64) :
    m.le64.getLsbD p = m.bit p := by
  unfold Memory.le64 Memory.bit
  simp only [BitVec.getLsbD_append]
  have h8 : p / 8 < 8 := by omega
  interval_cases h : p / 8 <;> repeat' split
  all_goals first
    | (exfalso; omega)
    | (congr 1; omega)

end Sys2Proof.Machine
end

