-- ==== Sys2Proof/Laws/Encoding.lean ====
section
/-! SUPPORT. The fields of a command word put together from its fields (spec/30_encoding.md R70),
and what a selecting field reads (R80). -/

namespace Sys2Proof

variable (op sel : BitVec 8) (n : BitVec 16) (a : BitVec 32) (d : BitVec 64)

@[simp] theorem opField_mkWord : opField (mkWord op sel n a d) = op := by
  apply BitVec.eq_of_getLsbD_eq
  intro i hi
  simp only [opField, mkWord, BitVec.getLsbD_extractLsb', BitVec.getLsbD_append]
  simp only [hi, decide_true, Bool.true_and]
  repeat' split
  all_goals first
    | (exfalso; omega)
    | exact congrArg _ (by omega)

@[simp] theorem selField_mkWord : selField (mkWord op sel n a d) = sel := by
  apply BitVec.eq_of_getLsbD_eq
  intro i hi
  simp only [selField, mkWord, BitVec.getLsbD_extractLsb', BitVec.getLsbD_append]
  simp only [hi, decide_true, Bool.true_and]
  repeat' split
  all_goals first
    | (exfalso; omega)
    | exact congrArg _ (by omega)

@[simp] theorem nField_mkWord : nField (mkWord op sel n a d) = n := by
  apply BitVec.eq_of_getLsbD_eq
  intro i hi
  simp only [nField, mkWord, BitVec.getLsbD_extractLsb', BitVec.getLsbD_append]
  simp only [hi, decide_true, Bool.true_and]
  repeat' split
  all_goals first
    | (exfalso; omega)
    | exact congrArg _ (by omega)

@[simp] theorem aField_mkWord : aField (mkWord op sel n a d) = a := by
  apply BitVec.eq_of_getLsbD_eq
  intro i hi
  simp only [aField, mkWord, BitVec.getLsbD_extractLsb', BitVec.getLsbD_append]
  simp only [hi, decide_true, Bool.true_and]
  repeat' split
  all_goals first
    | (exfalso; omega)
    | exact congrArg _ (by omega)

@[simp] theorem dField_mkWord : dField (mkWord op sel n a d) = d := by
  apply BitVec.eq_of_getLsbD_eq
  intro i hi
  simp only [dField, mkWord, BitVec.getLsbD_extractLsb', BitVec.getLsbD_append]
  simp only [hi, decide_true, Bool.true_and]
  repeat' split
  all_goals first
    | (exfalso; omega)
    | exact congrArg _ (by omega)

/-! ### Selecting fields (R80) -/

theorem decodeSel_buf_of_ge {v : BitVec 8} (h : 3 ≤ v.toNat) :
    decodeSel Buf.ofNum v = .reserved v := by
  have hn : Buf.ofNum v.toNat = none := by unfold Buf.ofNum; split <;> first | rfl | omega
  rw [decodeSel, hn]

theorem decodeSel_kind_of_ge {v : BitVec 8} (h : 13 ≤ v.toNat) :
    decodeSel Kind.ofNum v = .reserved v := by
  have hn : Kind.ofNum v.toNat = none := by unfold Kind.ofNum; split <;> first | rfl | omega
  rw [decodeSel, hn]

theorem decodeSel_reg_of_ge {v : BitVec 32} (h : 11 ≤ v.toNat) :
    decodeSel Reg.ofNum v = .reserved v := by
  have hn : Reg.ofNum v.toNat = none := by unfold Reg.ofNum; split <;> first | rfl | omega
  rw [decodeSel, hn]

theorem decodeSel_word_of_ge {v : BitVec 32} (h : 10 ≤ v.toNat) :
    decodeSel BmuWord.ofNum v = .reserved v := by
  have hn : BmuWord.ofNum v.toNat = none := by
    unfold BmuWord.ofNum; split <;> first | rfl | omega
  rw [decodeSel, hn]

/-- What a field reads is well formed when every number below the first reserved one is named. -/
theorem wf_decodeSel {α : Type} {w : Nat} {ofNum : Nat → Option α} {first : Nat}
    (h : ∀ k, k < first → (ofNum k).isSome = true) (v : BitVec w) :
    Sel.wf first (decodeSel ofNum v) = true := by
  unfold decodeSel
  split
  · rfl
  · next hn =>
    simp only [Sel.wf, decide_eq_true_eq]
    by_contra hc
    have := h v.toNat (by omega)
    rw [hn] at this
    cases this

end Sys2Proof
end

