-- ==== Sys2Proof/Laws/PerInstr.lean ====
section
/-! SUPPORT. The family `OpcodeField`, one lemma per constructor of `Instr`: the encoded word carries
the operation's opcode in bits 127:120 (spec/30_encoding.md R70, R78). -/

namespace Sys2Proof.Laws

/-- The `op` field of an operation's command word is its opcode. -/
def OpcodeField.Statement (i : Instr) : Prop := opField (encode i) = opcode i

theorem OpcodeField.nop : OpcodeField.Statement .nop := opField_mkWord ..

theorem OpcodeField.srst : OpcodeField.Statement .srst := opField_mkWord ..

theorem OpcodeField.rdr (reg : RegSel) :
    OpcodeField.Statement (.rdr reg) :=
  opField_mkWord ..

theorem OpcodeField.eclr (mask : BitVec 16) :
    OpcodeField.Statement (.eclr mask) :=
  opField_mkWord ..

theorem OpcodeField.ldb (sel : BufSel) (a : BitVec 32) :
    OpcodeField.Statement (.ldb sel a) :=
  opField_mkWord ..

theorem OpcodeField.stb (sel : BufSel) (a : BitVec 32) (b : Byte) :
    OpcodeField.Statement (.stb sel a b) :=
  opField_mkWord ..

theorem OpcodeField.crcinit : OpcodeField.Statement .crcinit := opField_mkWord ..

theorem OpcodeField.crcupd (b : Byte) :
    OpcodeField.Statement (.crcupd b) :=
  opField_mkWord ..

theorem OpcodeField.crcbuf (sel : BufSel) (a : BitVec 32) (n : BitVec 16) :
    OpcodeField.Statement (.crcbuf sel a n) :=
  opField_mkWord ..

theorem OpcodeField.crcapp (sel : BufSel) (a : BitVec 32) (n : BitVec 16) :
    OpcodeField.Statement (.crcapp sel a n) :=
  opField_mkWord ..

theorem OpcodeField.crcchk (sel : BufSel) (a : BitVec 32) (n : BitVec 16) :
    OpcodeField.Statement (.crcchk sel a n) :=
  opField_mkWord ..

theorem OpcodeField.suminit : OpcodeField.Statement .suminit := opField_mkWord ..

theorem OpcodeField.sumupd (b : Byte) :
    OpcodeField.Statement (.sumupd b) :=
  opField_mkWord ..

theorem OpcodeField.sumbuf (sel : BufSel) (a : BitVec 32) (n : BitVec 16) :
    OpcodeField.Statement (.sumbuf sel a n) :=
  opField_mkWord ..

theorem OpcodeField.bfget (sel : BufSel) (a : BitVec 32) (n : BitVec 16) :
    OpcodeField.Statement (.bfget sel a n) :=
  opField_mkWord ..

theorem OpcodeField.bfset (sel : BufSel) (a : BitVec 32) (n : BitVec 16) (d : BitVec 64) :
    OpcodeField.Statement (.bfset sel a n d) :=
  opField_mkWord ..

theorem OpcodeField.fflush : OpcodeField.Statement .fflush := opField_mkWord ..

theorem OpcodeField.freq (addr kind1 kind2 : Byte) :
    OpcodeField.Statement (.freq addr kind1 kind2) :=
  opField_mkWord ..

theorem OpcodeField.fpush (b : Byte) :
    OpcodeField.Statement (.fpush b) :=
  opField_mkWord ..

theorem OpcodeField.fdec (sel : BufSel) (a : BitVec 32) (n : BitVec 16) :
    OpcodeField.Statement (.fdec sel a n) :=
  opField_mkWord ..

theorem OpcodeField.fword (k : WordSel) :
    OpcodeField.Statement (.fword k) :=
  opField_mkWord ..

theorem OpcodeField.cmdset (v c : BitVec 32) (flags : BitVec 11) :
    OpcodeField.Statement (.cmdset v c flags) :=
  opField_mkWord ..

theorem OpcodeField.cenc : OpcodeField.Statement .cenc := opField_mkWord ..

theorem OpcodeField.cencoff : OpcodeField.Statement .cencoff := opField_mkWord ..

theorem OpcodeField.cld (id : BitVec 32) (dlc : BitVec 16) (payload : BitVec 64) :
    OpcodeField.Statement (.cld id dlc payload) :=
  opField_mkWord ..

theorem OpcodeField.crd : OpcodeField.Statement .crd := opField_mkWord ..

theorem OpcodeField.cdec : OpcodeField.Statement .cdec := opField_mkWord ..

theorem OpcodeField.tfld (kind : KindSel) (a : BitVec 32) (n : BitVec 16) :
    OpcodeField.Statement (.tfld kind a n) :=
  opField_mkWord ..

theorem OpcodeField.tack : OpcodeField.Statement .tack := opField_mkWord ..

end Sys2Proof.Laws
end

