-- ==== Sys2Proof/Laws/State.lean ====
section
/-! SUPPORT. One lemma per field and named update of the state, true by unfolding, so that no proof
unfolds a record update. -/

namespace Sys2Proof.Machine

variable (s : State)

/-! ### `State.answer` -/

@[simp] theorem State.answer_crc (st : Status) (r : BitVec 64) :
    (s.answer st r).crc = s.crc := rfl
@[simp] theorem State.answer_sum (st : Status) (r : BitVec 64) :
    (s.answer st r).sum = s.sum := rfl
@[simp] theorem State.answer_wb (st : Status) (r : BitVec 64) : (s.answer st r).wb = s.wb := rfl
@[simp] theorem State.answer_rxb (st : Status) (r : BitVec 64) :
    (s.answer st r).rxb = s.rxb := rfl
@[simp] theorem State.answer_rxlen (st : Status) (r : BitVec 64) :
    (s.answer st r).rxlen = s.rxlen := rfl
@[simp] theorem State.answer_fst (st : Status) (r : BitVec 64) :
    (s.answer st r).fst = s.fst := rfl
@[simp] theorem State.answer_bmw (st : Status) (r : BitVec 64) :
    (s.answer st r).bmw = s.bmw := rfl
@[simp] theorem State.answer_bmv (st : Status) (r : BitVec 64) :
    (s.answer st r).bmv = s.bmv := rfl
@[simp] theorem State.answer_cb (st : Status) (r : BitVec 64) : (s.answer st r).cb = s.cb := rfl
@[simp] theorem State.answer_cid (st : Status) (r : BitVec 64) :
    (s.answer st r).cid = s.cid := rfl
@[simp] theorem State.answer_cdlc (st : Status) (r : BitVec 64) :
    (s.answer st r).cdlc = s.cdlc := rfl
@[simp] theorem State.answer_cmdv (st : Status) (r : BitVec 64) :
    (s.answer st r).cmdv = s.cmdv := rfl
@[simp] theorem State.answer_cmdi (st : Status) (r : BitVec 64) :
    (s.answer st r).cmdi = s.cmdi := rfl
@[simp] theorem State.answer_cmdf (st : Status) (r : BitVec 64) :
    (s.answer st r).cmdf = s.cmdf := rfl
@[simp] theorem State.answer_tel (st : Status) (r : BitVec 64) :
    (s.answer st r).tel = s.tel := rfl
@[simp] theorem State.answer_tchg (st : Status) (r : BitVec 64) :
    (s.answer st r).tchg = s.tchg := rfl
@[simp] theorem State.answer_esr (st : Status) (r : BitVec 64) :
    (s.answer st r).esr = s.esr := rfl
@[simp] theorem State.answer_par (st : Status) (r : BitVec 64) :
    (s.answer st r).par = s.par := rfl
@[simp] theorem State.answer_port (st : Status) (r : BitVec 64) :
    (s.answer st r).port = s.port := rfl
@[simp] theorem State.answer_rsp (st : Status) (r : BitVec 64) :
    (s.answer st r).rsp = some ⟨st, r⟩ := rfl

/-! ### `State.raised` -/

@[simp] theorem State.raised_crc (f : EngFault) : (s.raised f).crc = s.crc := rfl
@[simp] theorem State.raised_sum (f : EngFault) : (s.raised f).sum = s.sum := rfl
@[simp] theorem State.raised_wb (f : EngFault) : (s.raised f).wb = s.wb := rfl
@[simp] theorem State.raised_rxb (f : EngFault) : (s.raised f).rxb = s.rxb := rfl
@[simp] theorem State.raised_rxlen (f : EngFault) : (s.raised f).rxlen = s.rxlen := rfl
@[simp] theorem State.raised_fst (f : EngFault) : (s.raised f).fst = s.fst := rfl
@[simp] theorem State.raised_bmw (f : EngFault) : (s.raised f).bmw = s.bmw := rfl
@[simp] theorem State.raised_bmv (f : EngFault) : (s.raised f).bmv = s.bmv := rfl
@[simp] theorem State.raised_cb (f : EngFault) : (s.raised f).cb = s.cb := rfl
@[simp] theorem State.raised_cid (f : EngFault) : (s.raised f).cid = s.cid := rfl
@[simp] theorem State.raised_cdlc (f : EngFault) : (s.raised f).cdlc = s.cdlc := rfl
@[simp] theorem State.raised_cmdv (f : EngFault) : (s.raised f).cmdv = s.cmdv := rfl
@[simp] theorem State.raised_cmdi (f : EngFault) : (s.raised f).cmdi = s.cmdi := rfl
@[simp] theorem State.raised_cmdf (f : EngFault) : (s.raised f).cmdf = s.cmdf := rfl
@[simp] theorem State.raised_tel (f : EngFault) : (s.raised f).tel = s.tel := rfl
@[simp] theorem State.raised_tchg (f : EngFault) : (s.raised f).tchg = s.tchg := rfl
@[simp] theorem State.raised_esr (f : EngFault) : (s.raised f).esr = esrWith f.esrBit s.esr := rfl
@[simp] theorem State.raised_par (f : EngFault) : (s.raised f).par = s.par := rfl
@[simp] theorem State.raised_port (f : EngFault) : (s.raised f).port = s.port := rfl
@[simp] theorem State.raised_rsp (f : EngFault) : (s.raised f).rsp = some ⟨.raised f, 0#64⟩ := rfl

/-! ### `setBuf` of WB -/

@[simp] theorem setBuf_wb (m : Memory) : setBuf s .wb m = { s with wb := m } := rfl

/-! ### `setBuf` of RXB -/

@[simp] theorem setBuf_rxb (m : Memory) : setBuf s .rxb m = { s with rxb := m } := rfl

/-! ### `setBuf` of CB -/

@[simp] theorem setBuf_cb (m : Memory) : setBuf s .cb m = { s with cb := m } := rfl

/-! ### `latch` -/

@[simp] theorem latch_crc (k : Kind) : (latch k s).crc = s.crc := rfl
@[simp] theorem latch_sum (k : Kind) : (latch k s).sum = s.sum := rfl
@[simp] theorem latch_wb (k : Kind) : (latch k s).wb = s.wb := rfl
@[simp] theorem latch_rxb (k : Kind) : (latch k s).rxb = s.rxb := rfl
@[simp] theorem latch_rxlen (k : Kind) : (latch k s).rxlen = s.rxlen := rfl
@[simp] theorem latch_fst (k : Kind) : (latch k s).fst = s.fst := rfl
@[simp] theorem latch_bmw (k : Kind) : (latch k s).bmw = s.bmw := rfl
@[simp] theorem latch_bmv (k : Kind) : (latch k s).bmv = s.bmv := rfl
@[simp] theorem latch_cb (k : Kind) : (latch k s).cb = s.cb := rfl
@[simp] theorem latch_cid (k : Kind) : (latch k s).cid = s.cid := rfl
@[simp] theorem latch_cdlc (k : Kind) : (latch k s).cdlc = s.cdlc := rfl
@[simp] theorem latch_cmdv (k : Kind) : (latch k s).cmdv = s.cmdv := rfl
@[simp] theorem latch_cmdi (k : Kind) : (latch k s).cmdi = s.cmdi := rfl
@[simp] theorem latch_cmdf (k : Kind) : (latch k s).cmdf = s.cmdf := rfl
@[simp] theorem latch_tel (k : Kind) : (latch k s).tel = s.tel.set k.num ⟨s.cb, true⟩ := rfl
@[simp] theorem latch_tchg (k : Kind) : (latch k s).tchg = true := rfl
@[simp] theorem latch_esr (k : Kind) : (latch k s).esr = s.esr := rfl
@[simp] theorem latch_par (k : Kind) : (latch k s).par = s.par := rfl
@[simp] theorem latch_port (k : Kind) : (latch k s).port = s.port := rfl
@[simp] theorem latch_rsp (k : Kind) : (latch k s).rsp = s.rsp := rfl

/-! ### `softReset` -/

@[simp] theorem softReset_crc  : (softReset s).crc = 0xFFFF#16 := rfl
@[simp] theorem softReset_sum  : (softReset s).sum = 0x00#8 := rfl
@[simp] theorem softReset_wb  : (softReset s).wb = s.wb := rfl
@[simp] theorem softReset_rxb  : (softReset s).rxb = s.rxb := rfl
@[simp] theorem softReset_rxlen  : (softReset s).rxlen = 0#9 := rfl
@[simp] theorem softReset_fst  : (softReset s).fst = .hunt0 := rfl
@[simp] theorem softReset_bmw  : (softReset s).bmw = s.bmw := rfl
@[simp] theorem softReset_bmv  : (softReset s).bmv = false := rfl
@[simp] theorem softReset_cb  : (softReset s).cb = [] := rfl
@[simp] theorem softReset_cid  : (softReset s).cid = 0#11 := rfl
@[simp] theorem softReset_cdlc  : (softReset s).cdlc = 0#4 := rfl
@[simp] theorem softReset_cmdv  : (softReset s).cmdv = 0#32 := rfl
@[simp] theorem softReset_cmdi  : (softReset s).cmdi = 0#32 := rfl
@[simp] theorem softReset_cmdf  : (softReset s).cmdf = 0#11 := rfl
@[simp] theorem softReset_tel  :
    (softReset s).tel = s.tel.map fun x => { x with valid := false } := rfl
@[simp] theorem softReset_tchg  : (softReset s).tchg = false := rfl
@[simp] theorem softReset_esr  : (softReset s).esr = 0x0000#16 := rfl
@[simp] theorem softReset_par  : (softReset s).par = s.par := rfl
@[simp] theorem softReset_port  : (softReset s).port = s.port := rfl
@[simp] theorem softReset_rsp  : (softReset s).rsp = none := rfl

/-! ### `powerOn` -/

@[simp] theorem powerOn_crc (wb : List Byte) : (powerOn wb s).crc = 0xFFFF#16 := rfl
@[simp] theorem powerOn_sum (wb : List Byte) : (powerOn wb s).sum = 0x00#8 := rfl
@[simp] theorem powerOn_wb (wb : List Byte) :
    (powerOn wb s).wb = Memory.writeBytes [] 0 (wb.take Config.wbSize) := rfl
@[simp] theorem powerOn_rxb (wb : List Byte) : (powerOn wb s).rxb = [] := rfl
@[simp] theorem powerOn_rxlen (wb : List Byte) : (powerOn wb s).rxlen = 0#9 := rfl
@[simp] theorem powerOn_fst (wb : List Byte) : (powerOn wb s).fst = .hunt0 := rfl
@[simp] theorem powerOn_bmw (wb : List Byte) :
    (powerOn wb s).bmw = Vector.replicate 10 0#16 := rfl
@[simp] theorem powerOn_bmv (wb : List Byte) : (powerOn wb s).bmv = false := rfl
@[simp] theorem powerOn_cb (wb : List Byte) : (powerOn wb s).cb = [] := rfl
@[simp] theorem powerOn_cid (wb : List Byte) : (powerOn wb s).cid = 0#11 := rfl
@[simp] theorem powerOn_cdlc (wb : List Byte) : (powerOn wb s).cdlc = 0#4 := rfl
@[simp] theorem powerOn_cmdv (wb : List Byte) : (powerOn wb s).cmdv = 0#32 := rfl
@[simp] theorem powerOn_cmdi (wb : List Byte) : (powerOn wb s).cmdi = 0#32 := rfl
@[simp] theorem powerOn_cmdf (wb : List Byte) : (powerOn wb s).cmdf = 0#11 := rfl
@[simp] theorem powerOn_tel (wb : List Byte) :
    (powerOn wb s).tel = Vector.replicate 13 ⟨[], false⟩ := rfl
@[simp] theorem powerOn_tchg (wb : List Byte) : (powerOn wb s).tchg = false := rfl
@[simp] theorem powerOn_esr (wb : List Byte) : (powerOn wb s).esr = 0x0000#16 := rfl
@[simp] theorem powerOn_par (wb : List Byte) : (powerOn wb s).par = s.par := rfl
@[simp] theorem powerOn_port (wb : List Byte) : (powerOn wb s).port = s.port := rfl
@[simp] theorem powerOn_rsp (wb : List Byte) : (powerOn wb s).rsp = none := rfl

/-! ### `State.withFetchWord` -/

@[simp] theorem State.withFetchWord_crc (nbits w : Nat) :
    (s.withFetchWord nbits w).crc = s.crc := rfl
@[simp] theorem State.withFetchWord_sum (nbits w : Nat) :
    (s.withFetchWord nbits w).sum = s.sum := rfl
@[simp] theorem State.withFetchWord_wb (nbits w : Nat) :
    (s.withFetchWord nbits w).wb = s.wb := rfl
@[simp] theorem State.withFetchWord_rxb (nbits w : Nat) :
    (s.withFetchWord nbits w).rxb = s.rxb := rfl
@[simp] theorem State.withFetchWord_rxlen (nbits w : Nat) :
    (s.withFetchWord nbits w).rxlen = s.rxlen := rfl
@[simp] theorem State.withFetchWord_fst (nbits w : Nat) :
    (s.withFetchWord nbits w).fst = s.fst := rfl
@[simp] theorem State.withFetchWord_bmw (nbits w : Nat) :
    (s.withFetchWord nbits w).bmw = s.bmw := rfl
@[simp] theorem State.withFetchWord_bmv (nbits w : Nat) :
    (s.withFetchWord nbits w).bmv = s.bmv := rfl
@[simp] theorem State.withFetchWord_cb (nbits w : Nat) :
    (s.withFetchWord nbits w).cb = s.cb := rfl
@[simp] theorem State.withFetchWord_cid (nbits w : Nat) :
    (s.withFetchWord nbits w).cid = s.cid := rfl
@[simp] theorem State.withFetchWord_cdlc (nbits w : Nat) :
    (s.withFetchWord nbits w).cdlc = s.cdlc := rfl
@[simp] theorem State.withFetchWord_cmdv (nbits w : Nat) :
    (s.withFetchWord nbits w).cmdv = s.cmdv := rfl
@[simp] theorem State.withFetchWord_cmdi (nbits w : Nat) :
    (s.withFetchWord nbits w).cmdi = s.cmdi := rfl
@[simp] theorem State.withFetchWord_cmdf (nbits w : Nat) :
    (s.withFetchWord nbits w).cmdf = s.cmdf := rfl
@[simp] theorem State.withFetchWord_tel (nbits w : Nat) :
    (s.withFetchWord nbits w).tel = s.tel := rfl
@[simp] theorem State.withFetchWord_tchg (nbits w : Nat) :
    (s.withFetchWord nbits w).tchg = s.tchg := rfl
@[simp] theorem State.withFetchWord_esr (nbits w : Nat) :
    (s.withFetchWord nbits w).esr = s.esr := rfl
@[simp] theorem State.withFetchWord_par (nbits w : Nat) :
    (s.withFetchWord nbits w).par = s.par := rfl
@[simp] theorem State.withFetchWord_port (nbits w : Nat) :
    (s.withFetchWord nbits w).port = .command (BitVec.ofNat 128 (w % 2 ^ nbits)) :: s.port := rfl
@[simp] theorem State.withFetchWord_rsp (nbits w : Nat) :
    (s.withFetchWord nbits w).rsp = s.rsp := rfl

/-! ### How an operation ends -/

/-- The whole of what `respond` does. -/
@[simp] theorem respond_eq (st : Status) (r : BitVec 64) : respond st r s = .next (s.answer st r) := rfl

/-- The whole of what `raise` does. -/
@[simp] theorem raise_eq (f : EngFault) : raise f s = .next (s.raised f) := rfl

@[simp] theorem bufMem_wb : bufMem s .wb = s.wb := rfl
@[simp] theorem bufMem_rxb : bufMem s .rxb = s.rxb := rfl
@[simp] theorem bufMem_cb : bufMem s .cb = s.cb := rfl
@[simp] theorem bufSize_wb : bufSize s .wb = 256 := rfl
@[simp] theorem bufSize_rxb : bufSize s .rxb = s.rxlen.toNat := rfl
@[simp] theorem bufSize_cb : bufSize s .cb = 8 := rfl
@[simp] theorem named_named {α : Type} {w : Nat} (x : α) : named (.named x : Sel α w) = some x := rfl
@[simp] theorem named_reserved {α : Type} {w : Nat} (v : BitVec w) :
    named (.reserved v : Sel α w) = none := rfl
@[simp] theorem writeTarget_wb : writeTarget (.named .wb) = some .wb := rfl
@[simp] theorem writeTarget_rxb : writeTarget (.named .rxb) = none := rfl
@[simp] theorem writeTarget_cb : writeTarget (.named .cb) = some .cb := rfl
@[simp] theorem writeTarget_reserved (v : BitVec 8) : writeTarget (.reserved v) = none := rfl

/-- What `bytesInRange` decides (R52). -/
theorem bytesInRange_iff (size : Nat) (a : BitVec 32) (n : BitVec 16) :
    bytesInRange size a n = true ↔ n.toNat = 0 ∨ a.toNat + n.toNat ≤ size := by
  simp [bytesInRange]

/-- What `bitsInRange` decides (R52). -/
theorem bitsInRange_iff (size : Nat) (a : BitVec 32) (n : BitVec 16) :
    bitsInRange size a n = true ↔ n.toNat = 0 ∨ a.toNat + n.toNat ≤ 8 * size := by
  simp [bitsInRange]

/-- A write-class operation reaches WB or CB, never RXB (R53). -/
theorem writeTarget_cases {sel : BufSel} {b : Buf} (h : writeTarget sel = some b) :
    sel = .named b ∧ (b = .wb ∨ b = .cb) := by
  rcases sel with x | v
  · cases x <;> simp_all [writeTarget]
  · simp [writeTarget] at h

/-- All that taking an input can do: nothing is presented, or the next input leaves the port. -/
theorem nextInput_cases : (s.port = [] ∧ nextInput s = none) ∨
    ∃ x rest, s.port = x :: rest ∧ nextInput s = some (x, { s with port := rest }) := by
  cases h : s.port with
  | nil => exact .inl ⟨rfl, by simp [nextInput, h]⟩
  | cons x rest => exact .inr ⟨x, rest, rfl, by simp [nextInput, h]⟩

/-- The record that `latch` replaces. -/
@[simp] theorem record_latch_self (k : Kind) : record (latch k s) k = ⟨s.cb, true⟩ := by
  simp [record]

/-- Kind numbers tell kinds apart. -/
theorem kind_num_inj {k k' : Kind} (h : k.num = k'.num) : k = k' := by
  cases k <;> cases k' <;> first | rfl | (exact absurd h (by decide))

/-- Every other record stays (R194). -/
theorem record_latch_other {k k' : Kind} (h : k' ≠ k) : record (latch k s) k' = record s k' := by
  have hn : (k.num : Nat) ≠ k'.num := fun e => h (kind_num_inj (Fin.ext e)).symm
  simp [record, Vector.getElem_set_ne _ _ hn]

end Sys2Proof.Machine
end

