-- ==== Sys2Proof/Machine/Assembler.lean ====
section
/-! DEFINITION. The assembler form of spec/30_encoding.md: mnemonics (R78), the written form of an
operation (R84), the pseudo-operations and their fixed expansions (R85), a text of lines as the
command words it stands for. -/

namespace Sys2Proof.Machine

/-- The mnemonic of an operation (R78). -/
def mnemonic : Instr → String
  | .nop => "NOP"
  | .srst => "SRST"
  | .rdr _ => "RDR"
  | .eclr _ => "ECLR"
  | .ldb _ _ => "LDB"
  | .stb _ _ _ => "STB"
  | .crcinit => "CRCINIT"
  | .crcupd _ => "CRCUPD"
  | .crcbuf _ _ _ => "CRCBUF"
  | .crcapp _ _ _ => "CRCAPP"
  | .crcchk _ _ _ => "CRCCHK"
  | .suminit => "SUMINIT"
  | .sumupd _ => "SUMUPD"
  | .sumbuf _ _ _ => "SUMBUF"
  | .bfget _ _ _ => "BFGET"
  | .bfset _ _ _ _ => "BFSET"
  | .fflush => "FFLUSH"
  | .freq _ _ _ => "FREQ"
  | .fpush _ => "FPUSH"
  | .fdec _ _ _ => "FDEC"
  | .fword _ => "FWORD"
  | .cmdset _ _ _ => "CMDSET"
  | .cenc => "CENC"
  | .cencoff => "CENCOFF"
  | .cld _ _ _ => "CLD"
  | .crd => "CRD"
  | .cdec => "CDEC"
  | .tfld _ _ _ => "TFLD"
  | .tack => "TACK"

/-- A buffer as written (R84). -/
def bufText : BufSel → String
  | .named .wb => "WB"
  | .named .rxb => "RXB"
  | .named .cb => "CB"
  | .reserved v => Nat.repr v.toNat

/-- A record kind by its name (R38, R84). -/
def kindText : KindSel → String
  | .named .ctrl => "K_CTRL"
  | .named .power => "K_POWER"
  | .named .ac => "K_AC"
  | .named .status => "K_STATUS"
  | .named .wireless => "K_WIRELESS"
  | .named .temp => "K_TEMP"
  | .named .lifeA => "K_LIFEA"
  | .named .lifeB => "K_LIFEB"
  | .named .lifeC => "K_LIFEC"
  | .named .cfgA => "K_CFGA"
  | .named .cfgB => "K_CFGB"
  | .named .comm => "K_COMM"
  | .named .baud => "K_BAUD"
  | .reserved v => Nat.repr v.toNat

/-- A register by its name (R41, R84). -/
def regText : RegSel → String
  | .named .id => "ID"
  | .named .esr => "ESR"
  | .named .evt => "EVT"
  | .named .crc => "CRC"
  | .named .sum => "SUM"
  | .named .fstat => "FSTAT"
  | .named .cmdf => "CMDF"
  | .named .cmdv => "CMDV"
  | .named .cmdi => "CMDI"
  | .named .canhdr => "CANHDR"
  | .named .tvalid => "TVALID"
  | .reserved v => Nat.repr v.toNat

/-- A word index as written (R84). -/
def wordText : WordSel → String
  | .named k => Nat.repr (BmuWord.num k).val
  | .reserved v => Nat.repr v.toNat

/-- A field as a decimal number. -/
def numText {w : Nat} (v : BitVec w) : String := Nat.repr v.toNat

/-- A signed field as a decimal number (V and I may be negative, R84). -/
def intText {w : Nat} (v : BitVec w) : String :=
  if v.toInt < 0 then "-" ++ Nat.repr v.toInt.natAbs else Nat.repr v.toInt.natAbs

/-- The operands of an operation, in the order of R84. -/
def operandTexts : Instr → List String
  | .nop => []
  | .srst => []
  | .rdr reg => [regText reg]
  | .eclr mask => [numText mask]
  | .ldb sel a => [bufText sel, numText a]
  | .stb sel a b => [bufText sel, numText a, numText b]
  | .crcinit => []
  | .crcupd b => [numText b]
  | .crcbuf sel a n => [bufText sel, numText a, numText n]
  | .crcapp sel a n => [bufText sel, numText a, numText n]
  | .crcchk sel a n => [bufText sel, numText a, numText n]
  | .suminit => []
  | .sumupd b => [numText b]
  | .sumbuf sel a n => [bufText sel, numText a, numText n]
  | .bfget sel a n => [bufText sel, numText a, numText n]
  | .bfset sel a n d => [bufText sel, numText a, numText n, numText d]
  | .fflush => []
  | .freq addr kind1 kind2 => [numText addr, numText kind1, numText kind2]
  | .fpush b => [numText b]
  | .fdec (.named .rxb) _ _ => ["RXB"]
  | .fdec sel a n => [bufText sel, numText a, numText n]
  | .fword k => [wordText k]
  | .cmdset v c flags => [intText v, intText c, numText flags]
  | .cenc => []
  | .cencoff => []
  | .cld id dlc payload => [numText id, numText dlc, numText payload]
  | .crd => []
  | .cdec => []
  | .tfld kind a n => [kindText kind, numText a, numText n]
  | .tack => []

/-- Operands separated by commas (R84). -/
def commaJoin : List String → String
  | [] => ""
  | [x] => x
  | x :: xs => x ++ ", " ++ commaJoin xs

/-- One operation as one line (R84). -/
def asmText (i : Instr) : String :=
  match operandTexts i with
  | [] => mnemonic i
  | xs => mnemonic i ++ " " ++ commaJoin xs

/-- The pseudo-operations (R85). -/
inductive Pseudo where
  | stbs (sel : BufSel) (idx : BitVec 32) (bytes : List Byte)
  | feed (bytes : List Byte)
  | crc16 (sel : BufSel) (off : BitVec 32) (cnt : BitVec 16)
  | sendreq (addr kind1 kind2 : Byte)
  | cmdoff
  | bfgetc (start : BitVec 32) (len : BitVec 16)
  | bfsetc (start : BitVec 32) (len : BitVec 16) (value : BitVec 64)
deriving DecidableEq, Repr

/-- STBS: one STB a byte, at rising indices `idx`, `idx+1`, … (R85). DESIGN CHOICE (unsafe, log entry
10): R85 does not say what an index beyond the 32 bits of the `a` field is; here the indices count
modulo 2^32, so the one after 0xFFFFFFFF is 0. DESIGN CHOICE (unsafe, log entry 11): no byte, no
operation. -/
def expandStbs (sel : BufSel) (idx : BitVec 32) : List Byte → List Instr
  | [] => []
  | b :: bs => .stb sel idx b :: expandStbs sel (idx + 1#32) bs

/-- The fixed expansion of a pseudo-operation (R85). FEED of no bytes is no operation (DESIGN CHOICE,
unsafe, log entry 11). -/
def expand : Pseudo → List Instr
  | .stbs sel idx bytes => expandStbs sel idx bytes
  | .feed bytes => bytes.map Instr.fpush
  | .crc16 sel off cnt => [.crcbuf sel off cnt]
  | .sendreq addr kind1 kind2 => [.fflush, .freq addr kind1 kind2]
  | .cmdoff => [.cmdset 0#32 0#32 0#11]
  | .bfgetc start len => [.bfget (.named .cb) start len]
  | .bfsetc start len value => [.bfset (.named .cb) start len value]

/-- A line of a text: an operation or a pseudo-operation. -/
inductive Line where
  | op (i : Instr)
  | pseudo (p : Pseudo)
deriving DecidableEq, Repr

/-- The operations of a text, in order. -/
def operations : List Line → List Instr
  | [] => []
  | .op i :: rest => i :: operations rest
  | .pseudo p :: rest => expand p ++ operations rest

/-- The command words of a text, in the order the host presents them. -/
def assemble (text : List Line) : List CmdWord := (operations text).map encode

end Sys2Proof.Machine
end

