-- ==== Sys2Proof/Laws/Units.lean ====
section
/-! SUPPORT. What the shared functions of the units do, each said once: CRC folding, checksum,
TVALID, the control frame bit by bit, the lookup table, the scanner's and the decoder's reach, all a
step can be, the expansion of STBS. -/

namespace Sys2Proof.Machine

/-! ### CRC and checksum -/

/-- The CRC of a concatenation goes on from the CRC of its first part. -/
theorem crcFrom_append (c : BitVec 16) (xs ys : List Byte) :
    crcFrom c (xs ++ ys) = crcFrom (crcFrom c xs) ys := by
  induction xs generalizing c with
  | nil => rfl
  | cons x xs ih => exact ih _

/-- The checksum is the sum of the bytes modulo 256 (R135). -/
theorem toNat_sum8 (bs : List Byte) : (sum8 bs).toNat = (bs.map BitVec.toNat).sum % 256 := by
  induction bs with
  | nil => rfl
  | cons b bs ih => simp only [sum8, BitVec.toNat_add, ih, List.map_cons, List.sum_cons]; omega

/-! ### Registers -/

/-- The bits of TVALID (R41). -/
theorem getLsbD_validBits (tel : Vector TelRecord 13) (n k : Nat) (hn : n ≤ 13) :
    (validBits tel n).getLsbD k =
      (decide (k < n) && (tel[k]?.map TelRecord.valid).getD false) := by
  induction n with
  | zero => simp [validBits]
  | succ n ih =>
    rw [validBits, BitVec.getLsbD_or, ih (by omega)]
    have h1 : (1#64 <<< n).getLsbD k = decide (k = n) := by
      simp only [BitVec.getLsbD_shiftLeft, BitVec.getLsbD_one]
      by_cases hk : k = n
      · subst hk; simp; omega
      · by_cases h2 : k < n
        · simp [h2, hk]
        · have : ¬k - n = 0 := by omega
          simp [hk, this]
    by_cases hk : k = n
    · subst hk
      cases hv : (tel[k]?.map TelRecord.valid).getD false <;> simp [h1]
    · have : decide (k < n + 1) = decide (k < n) := by simp; omega
      rw [this]
      split <;> simp [h1, hk]

/-! ### The control frame -/

/-- A clamped demand (R180). -/
theorem toNat_clampDemand (x : BitVec 32) {hi : Int} (h0 : 0 ≤ hi) (h : hi < 2 ^ 32) :
    (clampDemand x hi).toNat = (max 0 (min x.toInt hi)).toNat := by
  have e : clampInt x.toInt 0 hi = max 0 (min x.toInt hi) := by
    unfold clampInt; split <;> [skip; split] <;> omega
  unfold clampDemand
  rw [e, BitVec.toNat_ofInt, Int.emod_eq_of_lt (by omega) (by omega)]

/-- ALL the bits of a control frame (R178). -/
theorem bit_controlFrame (s : State) (en : BitVec 1) (cur : BitVec 64) (p : Nat) :
    (controlFrame s en cur).bit p =
      if p < 20 then (voltageField s).getLsbD p
      else if p = 20 then en.getLsbD 0
      else if p = 21 then (clrFlag s).getLsbD 0
      else if p < 31 then (stFlags s).getLsbD (p - 22)
      else if 32 ≤ p ∧ p < 50 then cur.getLsbD (p - 32) else false := by
  have h0 : Memory.bit [] p = false := by simp [Memory.bit]
  unfold controlFrame putField
  simp only [ctrlCurrent, ctrlStages, ctrlClear, ctrlEnable, ctrlVoltage, bit_bfSet, h0]
  by_cases h1 : p < 20
  · simp [h1, show ¬32 ≤ p by omega, show ¬22 ≤ p by omega, show ¬21 ≤ p by omega,
      show ¬20 ≤ p by omega]
  by_cases h2 : p = 20
  · subst h2; simp
  by_cases h3 : p = 21
  · subst h3; simp
  by_cases h4 : p < 31
  · simp [h1, h2, h3, h4, show ¬32 ≤ p by omega, show 22 ≤ p by omega]; omega
  by_cases h5 : 32 ≤ p ∧ p < 50
  · simp [h1, h2, h3, h4, h5]
  · rw [if_neg h5, if_neg (by omega), if_neg (by omega), if_neg (by omega), if_neg (by omega),
      if_neg h1, if_neg h2, if_neg h3, if_neg h4, if_neg h5]

/-- A control frame is canonical. -/
theorem wf_controlFrame (s : State) (en : BitVec 1) (cur : BitVec 64) :
    (controlFrame s en cur).wf = true := by
  unfold controlFrame putField
  iterate 5 apply wf_bfSet
  rfl

/-- A control frame is 8 bytes long. -/
theorem within_controlFrame (s : State) (en : BitVec 1) (cur : BitVec 64) :
    (controlFrame s en cur).within 8 = true := by
  unfold controlFrame putField
  simp only [ctrlCurrent, ctrlStages, ctrlClear, ctrlEnable, ctrlVoltage]
  iterate 5 apply within_bfSet _ _ (by omega)
  rfl

/-! ### The lookup table -/

/-- The first matching entry (R190). -/
theorem lookupId_eq_find (tab : List IdEntry) (cid : BitVec 11) :
    lookupId tab cid = tab.find? fun e => decide (cid &&& e.mask = e.id) := by
  induction tab with
  | nil => rfl
  | cons e t ih =>
    simp only [lookupId, List.find?, entryMatches, ih]
    cases decide (cid &&& e.mask = e.id) <;> rfl

/-! ### The framer -/

/-- What a byte into the scanner can change (R150). -/
theorem scanByte_frame (b : Byte) (s : State) :
    scanByte b s = { s with rxb := (scanByte b s).rxb, rxlen := (scanByte b s).rxlen,
                            fst := (scanByte b s).fst, esr := (scanByte b s).esr } := by
  unfold scanByte scanHunt1 scanCollect scanFooter
  dsimp only
  repeat' split
  all_goals rfl

/-- All that decoding a frame can do: raise the first failing check, or replace the ten words
(R160, R164). -/
theorem decodeFrame_cases (f : Nat → Byte) (len : Nat) (s : State) :
    (∃ e, frameError f len s.par.payloadOff = some e ∧
      decodeFrame f len s = .next (s.raised e)) ∨
    (frameError f len s.par.payloadOff = none ∧
      decodeFrame f len s = .next (({ s with
        bmw := payloadWords f s.par.payloadOff, bmv := true } : State).answer .ok 0#64)) := by
  unfold decodeFrame
  cases h : frameError f len s.par.payloadOff with
  | none => exact .inr ⟨rfl, rfl⟩
  | some e => exact .inl ⟨e, rfl, rfl⟩

/-! ### The step -/

/-- All a step that answers a next state can be. -/
theorem step_cases {s t : State} (h : step s = .next t) :
    (s.port = [] ∧ t = s) ∨ ∃ x rest, s.port = x :: rest ∧
      ((∃ wb, x = .powerOn wb ∧ t = powerOn wb { s with port := rest }) ∨
        (∃ w i, x = .command w ∧ decode w = .ok i ∧ exec i { s with port := rest } = .next t) ∨
        ∃ w e, x = .command w ∧ decode w = .error e ∧
          t = ({ s with port := rest } : State).raised .illegalOp) := by
  unfold step at h
  rcases nextInput_cases s with ⟨h1, h2⟩ | ⟨x, rest, h1, h2⟩
  · rw [h2] at h; cases h; exact .inl ⟨h1, rfl⟩
  · rw [h2] at h
    refine .inr ⟨x, rest, h1, ?_⟩
    cases x with
    | powerOn wb => cases h; exact .inl ⟨wb, rfl, rfl⟩
    | command w =>
      simp only at h
      cases hd : decode w with
      | ok i => rw [hd] at h; exact .inr (.inl ⟨w, i, rfl, hd, h⟩)
      | error e => rw [hd] at h; cases h; exact .inr (.inr ⟨w, e, rfl, hd, rfl⟩)

/-! ### Pseudo-operations -/

/-- The operations of STBS, one a byte: byte `k` goes to index `idx + k` modulo 2^32 (R85, log entry
10). -/
theorem expandStbs_getElem? (sel : BufSel) (bytes : List Byte) (idx : BitVec 32) (k : Nat) :
    (expandStbs sel idx bytes)[k]? =
      bytes[k]?.map fun b => Instr.stb sel (idx + BitVec.ofNat 32 k) b := by
  induction bytes generalizing idx k with
  | nil => simp [expandStbs]
  | cons b bs ih =>
    cases k with
    | zero => simp [expandStbs]
    | succ k => simp [expandStbs, ih, BitVec.add_assoc, BitVec.ofNat_add, BitVec.add_comm 1#32]

end Sys2Proof.Machine
end

