-- ==== Sys2Proof/Tests/Slice0.lean ====
section
/-! SUPPORT. The model's own tests. Expected values come from spec/95_test_vectors.md (the vector is
named) or from the rule named; none was taken from the model. After them the witnesses: for every
obligation with hypotheses, a state and operands that meet them, at the boundaries of its clauses. -/

namespace Sys2Proof.Tests

open Sys2Proof.Machine

/-! ## Helpers -/

/-- The state a step or a meaning answers. -/
def after (o : Res) : State :=
  match o with
  | .next t => t
  | .fault _ => State.reset
  | .refused _ => State.reset

/-- Status code and result of the response. -/
def answerOf (o : Res) : Option (BitVec 8 × BitVec 64) :=
  (after o).rsp.map fun x => (x.st.code, x.r)

/-- After reset, with the given bytes in WB. -/
def inWb (bs : List Byte) : State := { State.reset with wb := Memory.writeBytes [] 0 bs }

/-- After reset, with the given bytes in CB. -/
def inCb (bs : List Byte) : State := { State.reset with cb := Memory.writeBytes [] 0 bs }

/-- After reset, with the given bytes received and the scanner in the given state. -/
def received (bs : List Byte) (x : ScanState) : State :=
  { State.reset with
    rxb := Memory.writeBytes [] 0 bs, rxlen := BitVec.ofNat 9 bs.length, fst := x }

/-- After reset, with one command word presented. -/
def presented (w : CmdWord) : State := { State.reset with port := [.command w] }

/-- Buffer `T` of the vectors. -/
def bytesT : List Byte := [0x12#8, 0x34#8, 0x56#8, 0x78#8, 0x9A#8, 0xBC#8, 0xDE#8, 0xF0#8]

/-- `GOOD` of the vectors. -/
def good : List Byte :=
  [0xAF#8, 0xFA#8, 0x01#8, 0x15#8, 0x03#8, 0x14#8, 0x00#8, 0xFF#8, 0x06#8, 0x00#8, 0x57#8, 0x00#8,
    0x01#8, 0x00#8, 0x78#8, 0x00#8, 0x00#8, 0x00#8, 0xEB#8, 0x00#8, 0x63#8, 0x11#8, 0x94#8, 0x08#8,
    0xFC#8, 0xAF#8, 0xA0#8]

/-- The message of V-CRC-4. -/
def message : List Byte := [0x01#8, 0x03#8, 0x00#8, 0x00#8, 0x00#8, 0x0A#8]

/-- The shortest frame (V-FRM-4), and the same with a wrong footer. -/
def shortGood : List Byte := [0xAF#8, 0xFA#8, 0x01#8, 0x00#8, 0xAF#8, 0xA0#8]
def shortBad : List Byte := [0xAF#8, 0xFA#8, 0x01#8, 0x00#8, 0xAF#8, 0xA1#8]

/-! ## Well-formedness: each check refuses an ill-formed term -/

theorem test_wf_refuses_buffer : (Instr.ldb (.reserved 2#8) 0#32).wf = false := by decide
theorem test_wf_refuses_kind : (Instr.tfld (.reserved 12#8) 0#32 1#16).wf = false := by decide
theorem test_wf_refuses_register : (Instr.rdr (.reserved 10#32)).wf = false := by decide
theorem test_wf_refuses_word : (Instr.fword (.reserved 9#32)).wf = false := by decide
theorem test_wf_accepts_first_reserved : (Instr.ldb (.reserved 3#8) 0#32).wf = true := by decide

/-! ## Decode: for every constructor a word written out from the spec's encoding of it -/

theorem test_decode_nop : decode 0x00000000000000000000000000000000#128 = .ok .nop := by decide
theorem test_decode_srst : decode 0x01000000000000000000000000000000#128 = .ok .srst := by decide
theorem test_decode_rdr :
    decode 0x020000000000000A0000000000000000#128 = .ok (.rdr (.named .tvalid)) := by decide
theorem test_decode_eclr :
    decode 0x0300000000000000000000000000FFFF#128 = .ok (.eclr 0xFFFF#16) := by decide
theorem test_decode_ldb :
    decode 0x10000000000000FF0000000000000000#128 = .ok (.ldb (.named .wb) 255#32) := by decide
theorem test_decode_stb :
    decode 0x110000000000000000000000000001FF#128 = .ok (.stb (.named .wb) 0#32 0xFF#8) := by decide
theorem test_decode_crcinit :
    decode 0x20000000000000000000000000000000#128 = .ok .crcinit := by decide
theorem test_decode_crcupd :
    decode 0x21000000000000000000000000000001#128 = .ok (.crcupd 0x01#8) := by decide
theorem test_decode_crcbuf : decode 0x2200FFFFFFFFFFFF0000000000000000#128 =
    .ok (.crcbuf (.named .wb) 4294967295#32 65535#16) := by decide
theorem test_decode_crcapp :
    decode 0x23020007000000000000000000000000#128 = .ok (.crcapp (.named .cb) 0#32 7#16) := by decide
theorem test_decode_crcchk :
    decode 0x24000002000000FE0000000000000000#128 = .ok (.crcchk (.named .wb) 254#32 2#16) := by
  decide
theorem test_decode_suminit :
    decode 0x30000000000000000000000000000000#128 = .ok .suminit := by decide
theorem test_decode_sumupd :
    decode 0x310000000000000000000000000000FF#128 = .ok (.sumupd 0xFF#8) := by decide
theorem test_decode_sumbuf :
    decode 0x32010001000000000000000000000000#128 = .ok (.sumbuf (.named .rxb) 0#32 1#16) := by
  decide
theorem test_decode_bfget : decode 0x40030041EE6B28000000000000000000#128 =
    .ok (.bfget (.reserved 3#8) 4000000000#32 65#16) := by decide
theorem test_decode_bfset : decode 0x41020040000000000123456789ABCDEF#128 =
    .ok (.bfset (.named .cb) 0#32 64#16 0x0123456789ABCDEF#64) := by decide
theorem test_decode_fflush :
    decode 0x50000000000000000000000000000000#128 = .ok .fflush := by decide
theorem test_decode_freq :
    decode 0x51EEBEEFFFFFFF01FFFFFFFFFFFF2010#128 = .ok (.freq 0x01#8 0x10#8 0x20#8) := by decide
theorem test_decode_fpush :
    decode 0x52000000000000000000000000000055#128 = .ok (.fpush 0x55#8) := by decide
theorem test_decode_fdec :
    decode 0x5300001B000000000000000000000000#128 = .ok (.fdec (.named .wb) 0#32 27#16) := by decide
theorem test_decode_fword :
    decode 0x54000000000000060000000000000000#128 = .ok (.fword (.named .temp)) := by decide
theorem test_decode_cmdset : decode 0x60000003000000007FFFFFFF80000000#128 =
    .ok (.cmdset 0x80000000#32 0x7FFFFFFF#32 0b11#11) := by decide
theorem test_decode_cenc : decode 0x61000000000000000000000000000000#128 = .ok .cenc := by decide
theorem test_decode_cencoff :
    decode 0x62000000000000000000000000000000#128 = .ok .cencoff := by decide
theorem test_decode_cld : decode 0x63000008800001230102030405060708#128 =
    .ok (.cld 0x80000123#32 8#16 0x0102030405060708#64) := by decide
theorem test_decode_crd : decode 0x64000000000000000000000000000000#128 = .ok .crd := by decide
theorem test_decode_cdec : decode 0x65000000000000000000000000000000#128 = .ok .cdec := by decide
theorem test_decode_tfld :
    decode 0x660D0001000000000000000000000000#128 = .ok (.tfld (.reserved 13#8) 0#32 1#16) := by
  decide
theorem test_decode_tack : decode 0x67000000000000000000000000000000#128 = .ok .tack := by decide
/-- V-ILL-1, V-ILL-3. -/
theorem test_decode_illegal :
    decode 0x04000000000000000000000000000000#128 = .error (.illegalOp 0x04#8) ∧
    decode 0xFFFFFFFFFFFFFFFFFFFFFFFFFFFFFFFF#128 = .error (.illegalOp 0xFF#8) := by decide
/-- The host's entry, bit 0 the lowest bit of the word. -/
theorem test_decode_table_word :
    decodeTableWord 128 0x52000000000000000000000000000055 = some (.fpush 0x55#8) := by decide

/-! ## One step each -/

/-- R44: the buffers of the reset state are canonical. -/
theorem test_reset_canonical : Inv State.reset := by decide

/-- V-SYS-1, through the port. -/
theorem test_nop_step : answerOf (step (presented 0#128)) = some (0x00#8, 0#64) := by decide

/-- V-ILL-2: code 0x10, ESR bit 0. -/
theorem test_illegal_step :
    answerOf (step (presented 0x7F010002000000030000000000000004#128)) = some (0x10#8, 0#64) ∧
    (after (step (presented 0x7F010002000000030000000000000004#128))).esr = 0x0001#16 := by decide

/-- R216: CMDF goes to 0, WB stays. -/
theorem test_srst :
    (after (exec .srst { inWb message with cmdf := 0x7FF#11 })).cmdf = 0#11 ∧
    (after (exec .srst (inWb message))).wb.read 5 = 0x0A#8 := by decide

/-- V-FRM-5: FSTAT of a held 27-byte frame. -/
theorem test_rdr_fstat : answerOf (exec (.rdr (.named .fstat)) (received good .ready)) =
    some (0x00#8, 0x0000001B001B0003#64) := by decide

/-- V-CAN-8: CMDV is sign-extended. -/
theorem test_rdr_cmdv : answerOf (exec (.rdr (.named .cmdv))
    { State.reset with cmdv := 0x80000000#32 }) = some (0x00#8, 0xFFFFFFFF80000000#64) := by decide

/-- V-SYS-11. -/
theorem test_eclr :
    answerOf (exec (.eclr 0x0001#16) { State.reset with esr := 0x0007#16 }) =
      some (0x00#8, 7#64) ∧
    (after (exec (.eclr 0x0001#16) { State.reset with esr := 0x0007#16 })).esr = 0x0006#16 := by
  decide

/-- V-FRM-4: the last received byte, and the index behind it. -/
theorem test_ldb :
    answerOf (exec (.ldb (.named .rxb) 5#32) (received shortGood .ready)) =
      some (0x00#8, 0xA0#64) ∧
    answerOf (exec (.ldb (.named .rxb) 6#32) (received shortGood .ready)) =
      some (0x12#8, 0#64) := by decide

/-- V-SYS-9, V-SYS-8. -/
theorem test_stb :
    (after (exec (.stb (.named .wb) 0#32 0xFF#8) State.reset)).wb = [(0, 0xFF#8)] ∧
    answerOf (exec (.stb (.named .cb) 8#32 1#8) State.reset) = some (0x12#8, 0#64) := by decide

/-- V-CRC-22. -/
theorem test_crcinit : answerOf (exec .crcinit State.reset) = some (0x00#8, 0xFFFF#64) := by decide

/-- V-CRC-2. -/
theorem test_crcupd :
    answerOf (exec (.crcupd 0x01#8) State.reset) = some (0x00#8, 0x807E#64) := by decide

/-- V-CRC-11. -/
theorem test_crcbuf : answerOf (exec (.crcbuf (.named .wb) 0#32 6#16) (inWb message)) =
    some (0x00#8, 0xCDC5#64) := by decide +kernel

/-- V-CRC-17. -/
theorem test_crcbuf_empty :
    answerOf (exec (.crcbuf (.named .wb) 256#32 0#16) State.reset) = some (0x00#8, 0xFFFF#64) ∧
    answerOf (exec (.crcbuf (.named .wb) 256#32 1#16) State.reset) = some (0x12#8, 0#64) := by
  decide

/-- V-CRC-12: the low byte first. -/
theorem test_crcapp :
    (after (exec (.crcapp (.named .wb) 0#32 6#16) (inWb message))).wb.bytes 5 4 =
      [0x0A#8, 0xC5#8, 0xCD#8, 0x00#8] := by decide +kernel

/-- V-CRC-13, V-CRC-14. -/
theorem test_crcchk :
    answerOf (exec (.crcchk (.named .wb) 0#32 8#16) (inWb (message ++ [0xC5#8, 0xCD#8]))) =
      some (0x00#8, 0xCDC5#64) ∧
    answerOf (exec (.crcchk (.named .wb) 0#32 8#16) (inWb (message ++ [0xC5#8, 0xCC#8]))) =
      some (0x29#8, 0#64) := by decide +kernel

/-- V-CRC-15, V-CRC-16. -/
theorem test_crcchk_order :
    answerOf (exec (.crcchk (.named .wb) 254#32 2#16) State.reset) = some (0x28#8, 0#64) ∧
    answerOf (exec (.crcchk (.named .wb) 255#32 2#16) State.reset) = some (0x12#8, 0#64) := by
  decide

/-- V-SUM-6. -/
theorem test_suminit :
    answerOf (exec .suminit { State.reset with sum := 5#8 }) = some (0x00#8, 0#64) := by decide
theorem test_sumupd :
    answerOf (exec (.sumupd 0xFF#8) { State.reset with sum := 0xFE#8 }) =
      some (0x00#8, 0xFD#64) := by decide

/-- V-SUM-3. -/
theorem test_sumbuf : answerOf (exec (.sumbuf (.named .wb) 0#32 3#16)
    (inWb [0xFF#8, 0xFF#8, 0xFF#8])) = some (0x00#8, 0xFD#64) := by decide

/-- V-BF-2, V-BF-4a. -/
theorem test_bfget :
    answerOf (exec (.bfget (.named .cb) 4#32 8#16) (inCb bytesT)) = some (0x00#8, 0x41#64) ∧
    answerOf (exec (.bfget (.named .cb) 7#32 57#16) (inCb bytesT)) =
      some (0x00#8, 0x01E1BD7934F0AC68#64) := by decide

/-- V-BF-17, V-BF-14. -/
theorem test_bfget_faults :
    answerOf (exec (.bfget (.named .rxb) 0#32 1#16) State.reset) = some (0x12#8, 0#64) ∧
    answerOf (exec (.bfget (.named .cb) 0#32 65#16) State.reset) = some (0x11#8, 0#64) := by decide

/-- V-BF-5. -/
theorem test_bfset : (after (exec (.bfset (.named .cb) 4#32 8#16 0x1AB#64) State.reset)).cb =
    [(0, 0xB0#8), (1, 0x0A#8)] := by decide

/-- V-BF-13: nothing is written. -/
theorem test_bfset_precise :
    answerOf (exec (.bfset (.named .cb) 60#32 8#16 0xFF#64) (inCb [0xAA#8])) =
      some (0x12#8, 0#64) ∧
    (after (exec (.bfset (.named .cb) 60#32 8#16 0xFF#64) (inCb [0xAA#8]))).cb =
      [(0, 0xAA#8)] := by decide

/-- V-FRM-4, last lines. -/
theorem test_fflush :
    (after (exec .fflush (received shortGood .ready))).rxlen = 0#9 ∧
    (after (exec .fflush (received shortGood .ready))).fst = .hunt0 := by decide

/-- V-FRM-2. -/
theorem test_freq :
    (after (exec (.freq 0x80#8 0xFF#8 0xFF#8) State.reset)).wb.bytes 0 11 =
      [0xAF#8, 0xFA#8, 0x80#8, 0x05#8, 0x01#8, 0x80#8, 0xFF#8, 0xFF#8, 0x04#8, 0xAF#8, 0xA0#8] := by
  decide

/-- V-FRM-4: the byte that completes the shortest frame. -/
theorem test_fpush_accepts :
    answerOf (exec (.fpush 0xA0#8) (received (shortGood.take 5) .collect)) = some (0x00#8, 3#64) ∧
    (after (exec (.fpush 0xA0#8) (received (shortGood.take 5) .collect))).rxlen = 6#9 := by decide

/-- R154: a wrong footer resynchronises with ESR bit 10. -/
theorem test_fpush_resyncs :
    answerOf (exec (.fpush 0xA1#8) (received (shortGood.take 5) .collect)) = some (0x00#8, 0#64) ∧
    (after (exec (.fpush 0xA1#8) (received (shortGood.take 5) .collect))).esr = 0x0400#16 := by
  decide

/-- V-FRM-5: the ten words. -/
theorem test_fdec :
    (after (exec (.fdec (.named .rxb) 0#32 0#16) (received good .ready))).bmw =
      #v[0x1400#16, 0xFF06#16, 0x0057#16, 0x0001#16, 0x0078#16, 0x0000#16, 0x00EB#16, 0x0063#16,
        0x1194#16, 0x08FC#16] := by decide

/-- V-FRM-17, V-FRM-19. -/
theorem test_fdec_payload :
    answerOf (exec (.fdec (.named .wb) 0#32 9#16) (inWb
      [0xAF#8, 0xFA#8, 0x01#8, 0x03#8, 0x03#8, 0x00#8, 0x00#8, 0xAF#8, 0xA0#8])) =
      some (0x24#8, 0#64) ∧
    answerOf (exec (.fdec (.named .wb) 0#32 27#16)
      { inWb good with par := { Params.sample with payloadOff := 6 } }) = some (0x24#8, 0#64) := by
  decide

/-- V-FRM-6, word 1: signed. -/
theorem test_fword : answerOf (exec (.fword (.named .current))
    { State.reset with bmw := State.reset.bmw.set 1 0xFF06#16, bmv := true }) =
    some (0x00#8, 0xFFFFFFFFFFFFFF06#64) := by decide

/-- V-FRM-11. -/
theorem test_fword_empty :
    answerOf (exec (.fword (.named .voltage)) State.reset) = some (0x01#8, 0#64) := by decide

/-- V-CAN-1. -/
theorem test_cmdset :
    (after (exec (.cmdset 48000#32 10000#32 0b101#11) State.reset)).cmdi = 10000#32 ∧
    (after (exec (.cmdset 48000#32 10000#32 0b101#11) State.reset)).cmdf = 0b101#11 := by decide

/-- V-CAN-1, V-CAN-8: clamped as signed numbers. -/
theorem test_cenc :
    answerOf (exec .cenc { State.reset with cmdv := 48000#32, cmdi := 10000#32, cmdf := 0b101#11 }) =
      some (0x00#8, 0x000027100050BB80#64) ∧
    answerOf (exec .cenc { State.reset with
      cmdv := 0x80000000#32, cmdi := 0x7FFFFFFF#32, cmdf := 0b11#11 }) =
      some (0x00#8, 0x0003FFFF00300000#64) := by decide +kernel

/-- V-CAN-5. -/
theorem test_cencoff :
    (after (exec .cencoff { State.reset with
      cmdv := 1048575#32, cmdi := 262143#32, cmdf := 0x7FF#11 })).cb.bytes 0 8 =
      [0xFF#8, 0xFF#8, 0xEF#8, 0x7F#8, 0x00#8, 0x00#8, 0x00#8, 0x00#8] := by decide +kernel

/-- V-CAN-9. -/
theorem test_cld :
    (after (exec (.cld 0x123#32 2#16 0xFFFFFFFFFFFFBBAA#64) State.reset)).cb =
      [(0, 0xAA#8), (1, 0xBB#8)] ∧
    (after (exec (.cld 0x123#32 2#16 0xFFFFFFFFFFFFBBAA#64) State.reset)).cdlc = 2#4 := by decide

/-- V-CAN-10a, V-CAN-11. -/
theorem test_cld_bounds :
    (after (exec (.cld 0x800#32 8#16 1#64) State.reset)).cid = 0#11 ∧
    answerOf (exec (.cld 0x305#32 9#16 0#64) State.reset) = some (0x11#8, 0#64) := by decide

/-- V-BF-4b's buffer: index 0 is the low byte. -/
theorem test_crd :
    answerOf (exec .crd (inCb bytesT)) = some (0x00#8, 0xF0DEBC9A78563412#64) := by decide

/-- V-CAN-12: kind 1. -/
theorem test_cdec :
    answerOf (exec .cdec { inCb bytesT with cid := 0x305#11, cdlc := 8#4 }) =
      some (0x00#8, 1#64) ∧
    (after (exec .cdec { inCb bytesT with cid := 0x305#11, cdlc := 8#4 })).tel[1].valid = true := by
  decide

/-- V-CAN-13: the first match alone decides. -/
theorem test_cdec_first_match :
    answerOf (exec .cdec { State.reset with
      cid := 0x310#11, cdlc := 4#4
      par := { Params.sample with
        idTab := [⟨.power, 0x300#11, 0x700#11, 8⟩, ⟨.status, 0x310#11, 0x7F0#11, 0⟩] } }) =
      some (0x03#8, 0#64) := by decide

/-- V-CAN-12: the current of K_POWER, and a record never received. -/
theorem test_tfld :
    answerOf (exec (.tfld (.named .power) 20#32 18#16) { State.reset with
      tel := State.reset.tel.set 1
        ⟨Memory.writeBytes [] 0 [0x80#8, 0xBB#8, 0x00#8, 0x71#8, 0x02#8], true⟩ }) =
      some (0x00#8, 0x2710#64) ∧
    answerOf (exec (.tfld (.named .status) 0#32 6#16) State.reset) = some (0x01#8, 0#64) := by decide

/-- V-CAN-12. -/
theorem test_tack :
    answerOf (exec .tack { State.reset with tchg := true }) = some (0x00#8, 1#64) ∧
    (after (exec .tack { State.reset with tchg := true })).tchg = false := by decide

/-- R84, R85: SENDREQ is FFLUSH then FREQ (program P2). -/
theorem test_assemble : assemble [.pseudo (.sendreq 0x01#8 0x10#8 0x20#8)] =
    [0x50000000000000000000000000000000#128, 0x51000000000000010000000000002010#128] := by decide

/-- The model's choice of log entry 10: the index after 0xFFFFFFFF is 0. -/
theorem test_stbs_wraps : expand (.stbs (.named .wb) 0xFFFFFFFF#32 [0x01#8, 0x02#8]) =
    [.stb (.named .wb) 0xFFFFFFFF#32 0x01#8, .stb (.named .wb) 0#32 0x02#8] := by decide

/-- The line of V-BF-13 as the spec writes it, but for the number, decimal here. -/
theorem test_asm_text :
    asmText (.bfset (.named .cb) 60#32 8#16 0xFF#64) = "BFSET CB, 60, 8, 255" := by decide

/-! ## Witnesses -/

theorem test_witness_PowerOnTakesAnyWorkBuffer :
    ∃ (s : State) (bytes : List Byte) (rest : List Input), bytes.length = 256 ∧
      s.port = .powerOn bytes :: rest ∧ bytes[0]? = some 0x5A#8 ∧ bytes[255]? = some 0x5A#8 :=
  ⟨{ State.reset with port := [.powerOn (List.replicate 256 0x5A#8)] },
    List.replicate 256 0x5A#8, [], List.length_replicate, rfl, by decide +kernel, by decide +kernel⟩

theorem test_witness_RdrReadsEveryRegister :
    11 ≤ (11#32).toNat ∧ 11 ≤ (0xFFFFFFFF#32).toNat ∧ 13 ≤ 13 := by decide

/-- Both sides of each readable size. -/
theorem test_witness_LdbReadsOneByte :
    (255#32).toNat < 256 ∧ ¬(256#32).toNat < 256 ∧ (7#32).toNat < 8 ∧ ¬(8#32).toNat < 8 ∧
    (5#32).toNat < (received shortGood .ready).rxlen.toNat ∧
    ¬(6#32).toNat < (received shortGood .ready).rxlen.toNat := by decide

/-- One word for each reserved operand of R80, at its boundary, and one with none. -/
theorem test_witness_ReservedOperandsFault :
    (∀ w, (presented w).port = .command w :: []) ∧
    ReservedOperand 0x53#8 3#8 0#16 0#32 ∧ ReservedOperand 0x23#8 1#8 0#16 0#32 ∧
    ReservedOperand 0x66#8 13#8 0#16 0#32 ∧ ReservedOperand 0x66#8 12#8 65#16 0#32 ∧
    ReservedOperand 0x02#8 0#8 0#16 11#32 ∧ ReservedOperand 0x54#8 0#8 0#16 10#32 ∧
    ReservedOperand 0x63#8 0#8 9#16 0#32 ∧ ¬ReservedOperand 0x63#8 0#8 8#16 0#32 ∧
    ¬ReservedOperand 0x66#8 12#8 64#16 0#32 ∧ ¬ReservedOperand 0x53#8 2#8 0#16 0#32 :=
  ⟨fun _ => rfl, by decide, by decide, by decide, by decide, by decide, by decide, by decide,
    by decide, by decide, by decide⟩

/-- One boundary value for each clause: WB, and CB where RXB is shut out. -/
theorem test_witness_OutOfRangeAccessFaults :
    bufSize State.reset .wb ≤ (256#32).toNat ∧ bufSize State.reset .rxb ≤ (0#32).toNat ∧
    (bufSize State.reset .cb ≤ (8#32).toNat ∧ Buf.cb ≠ .rxb) ∧
    ((8#16).toNat ≤ 64 ∧ 0 < (8#16).toNat ∧
      8 * bufSize State.reset .wb < (2041#32).toNat + (8#16).toNat) ∧
    (0 < (1#16).toNat ∧ bufSize State.reset .wb < (256#32).toNat + (1#16).toNat) ∧
    bufSize State.reset .wb < (255#32).toNat + (0#16).toNat + 2 ∧
    ((5#16).toNat ≤ 64 ∧ 0 < (5#16).toNat ∧ 64 < (60#32).toNat + (5#16).toNat) := by decide

theorem test_witness_CrcStepIsTheBitLoop : 0 < 8 ∧ 7 < 8 := by decide

theorem test_witness_CrcappAppendsTheTrailer : Buf.wb ≠ .rxb ∧ Buf.cb ≠ .rxb ∧
    (254#32).toNat + (0#16).toNat + 2 ≤ bufSize State.reset .wb := by decide

theorem test_witness_CrcappThenCrcchkAccepts : Buf.cb ≠ .rxb ∧ 1 ≤ (1#16).toNat ∧
    (5#32).toNat + (1#16).toNat + 2 ≤ bufSize State.reset .cb := by decide

theorem test_witness_BfgetReadsTheField : (64#16).toNat ≤ 64 ∧ (0#16).toNat ≤ 64 := by decide

theorem test_witness_BfsetWritesTheField : Buf.cb ≠ .rxb ∧
    (8 * 0 + 8 ≤ (8#32).toNat ∨ (8#32).toNat + (8#16).toNat ≤ 8 * 0) ∧
    (8 * 2 + 8 ≤ (8#32).toNat ∨ (8#32).toNat + (8#16).toNat ≤ 8 * 2) := by decide

theorem test_witness_BitFieldRoundTrip : Buf.cb ≠ .rxb ∧ (64#16).toNat ≤ 64 ∧
    ((64#16).toNat = 0 ∨ (0#32).toNat + (64#16).toNat ≤ 8 * bufSize State.reset .cb) ∧
    ((0#16).toNat = 0 ∨ (4000000000#32).toNat + (0#16).toNat ≤ 8 * bufSize State.reset .cb) := by
  decide

theorem test_witness_BitFieldLaws :
    Memory.wf [(0, 0x12#8), (7, 0xF0#8)] = true ∧ 64 ≤ 64 ∧ 4 ≤ 64 ∧ 0 + 64 ≤ 64 := by decide

theorem test_witness_BfgetIsASliceOfLe64 : 0 + 64 ≤ 64 ∧ 63 + 1 ≤ 64 := by decide

theorem test_witness_FreqBuildsTheRequest :
    [0xAF#8, 0xFA#8, 0x01#8, 0x05#8, 0x01#8, 0x01#8, 0x10#8, 0x20#8, 0x38#8, 0xAF#8, 0xA0#8][10]? =
      some 0xA0#8 ∧ 11 ≤ 11 := by decide

theorem test_witness_FpushOutsideAFrame :
    State.reset.fst = .hunt0 ∧ (received [] .hunt1).fst = .hunt1 ∧ 2 ≤ 2 ∧
    (received shortGood .ready).fst = .ready := by decide

theorem test_witness_FpushCollecting :
    ((received [0xAF#8, 0xFA#8] .collect).fst = .collect ∧
      2 ≤ (received [0xAF#8, 0xFA#8] .collect).rxlen.toNat ∧
      (received [0xAF#8, 0xFA#8] .collect).rxlen.toNat ≤ 260) ∧
    2 ≤ ({ State.reset with fst := .collect, rxlen := 260#9 } : State).rxlen.toNat ∧
    ({ State.reset with fst := .collect, rxlen := 260#9 } : State).rxlen.toNat ≤ 260 := by decide

theorem test_witness_ResyncKeepsTheNextFrame :
    State.reset.fst = .hunt0 ∧ State.reset.rxlen = 0#9 ∧
    Counted shortBad ∧ ¬FooterGood shortBad ∧ Counted shortGood ∧ FooterGood shortGood := by
  refine ⟨rfl, rfl, ⟨rfl, rfl, 0#8, rfl, rfl⟩, ?_, ⟨rfl, rfl, 0#8, rfl, rfl⟩, rfl, rfl⟩
  unfold FooterGood
  decide

theorem test_witness_RequestPassesTheScannerOnly :
    State.reset.fst = .hunt0 ∧ State.reset.rxlen = 0#9 := by decide

/-- One frame for each check, the last one passing all (V-FRM-12 to V-FRM-18). -/
theorem test_witness_FdecValidatesAndUnpacks :
    (received good .hunt0).fst ≠ .ready ∧
    (0 < (27#16).toNat ∧ bufSize State.reset .wb < (250#32).toNat + (27#16).toNat) ∧
    frameError (inWb good).wb.read 8 5 = some .feLength ∧
    frameError ((inWb good).wb.write 0 0xAE#8).read 27 5 = some .feHeader ∧
    frameError ((inWb good).wb.write 26 0xA1#8).read 27 5 = some .feFooter ∧
    frameError ((inWb good).wb.write 4 0x01#8).read 27 5 = some .feCommand ∧
    frameError (inWb good).wb.read 27 6 = some .fePayload ∧
    frameError (inWb good).wb.read 27 5 = none := by decide

theorem test_witness_HeldFrameIsWellFramed :
    Inv (received shortGood .ready) ∧
    exec (.fdec (.named .rxb) 0#32 0#16) (received shortGood .ready) =
      .next ((received shortGood .ready).raised .feLength) ∧
    ((received shortGood .ready).raised .feLength).rsp = some ⟨.raised .feLength, 0#64⟩ :=
  ⟨by decide, rfl, rfl⟩

theorem test_witness_FwordReadsADecodedWord :
    10 ≤ (10#32).toNat ∧ (9#32).toNat < 10 ∧ (1#32).toNat = 1 ∧ (6#32).toNat = 6 ∧
    ¬((0#32).toNat = 1 ∨ (0#32).toNat = 6) := by decide

theorem test_witness_CencBuildsTheControlFrame : 8 ≤ 8 := by decide

theorem test_witness_CldLoadsAFrame :
    (8#16).toNat ≤ 8 ∧ 8 < (9#16).toNat ∧ 7 < (8#16).toNat := by decide

theorem test_witness_CrdReadsThePayload : 0 < 8 ∧ 7 < 8 := by decide

/-- The three clauses: no match, too short, replaced (V-CAN-12). -/
theorem test_witness_CdecReplacesOneRecord :
    Params.sample.idTab.find? (fun e => decide (0x7FF#11 &&& e.mask = e.id)) = none ∧
    (Params.sample.idTab.find? (fun e => decide (0x30F#11 &&& e.mask = e.id)) =
      some ⟨.power, 0x300#11, 0x7F0#11, 5⟩ ∧ (4#4).toNat < 5 ∧ ¬(5#4).toNat < 5) ∧
    (0 : Fin 13) ≠ Kind.num .power := by decide

theorem test_witness_TfldReadsARecord : (64#16).toNat ≤ 64 ∧ 64 < (65#16).toNat ∧
    (0 < (5#16).toNat ∧ 64 < (60#32).toNat + (5#16).toNat) := by decide

theorem test_witness_ReceivedFrameReadsBack :
    State.reset.par.idTab.find?
      (fun e => decide ((0x8000030F#32).extractLsb' 0 11 &&& e.mask = e.id)) =
      some ⟨.power, 0x300#11, 0x7F0#11, 5⟩ ∧ (5#16).toNat ≤ 8 ∧ 5 ≤ (5#16).toNat ∧
    (8#16).toNat ≤ 8 := by decide

/-- A word of each class: NOP, FWORD before any decode, an illegal opcode. -/
theorem test_witness_EveryOperationAnswers :
    (∀ w, (presented w).port = .command w :: []) ∧
    answerOf (step (presented 0#128)) = some (0x00#8, 0#64) ∧
    answerOf (step (presented (encode (.fword (.named .soc))))) = some (0x01#8, 0#64) ∧
    answerOf (step (presented 0x04000000000000000000000000000000#128)) = some (0x10#8, 0#64) :=
  ⟨fun _ => rfl, by decide⟩

theorem test_witness_FaultsArePrecise :
    (presented (encode (.rdr (.reserved 11#32)))).port =
      .command (encode (.rdr (.reserved 11#32))) :: [] ∧
    step (presented (encode (.rdr (.reserved 11#32)))) =
      .next (State.reset.raised .operandFault) ∧
    (State.reset.raised .operandFault).rsp = some ⟨.raised .operandFault, 0#64⟩ := ⟨rfl, rfl, rfl⟩

theorem test_witness_SixteenOperationsNeverFault :
    opcode (.fpush 0#8) ∈ [0x00#8, 0x01#8, 0x03#8, 0x20#8, 0x21#8, 0x30#8, 0x31#8, 0x50#8, 0x51#8,
      0x52#8, 0x60#8, 0x61#8, 0x62#8, 0x64#8, 0x65#8, 0x67#8] := by decide

theorem test_witness_NoOperationDependsOnEsr :
    Instr.rdr (.named .crc) ≠ .rdr (.named .esr) ∧ (∀ m, Instr.rdr (.named .crc) ≠ .eclr m) ∧
    exec (.rdr (.named .crc)) { State.reset with esr := 0x0400#16 } =
      .next (({ State.reset with esr := 0x0400#16 } : State).answer .ok 0xFFFF#64) ∧
    opcode (.rdr (.named .crc)) ∉ [0x01#8, 0x03#8] ∧
    ({ State.reset with esr := 0x0400#16 } : State).esr.getLsbD 10 = true :=
  ⟨by decide, fun _ h => (nomatch h), rfl, by decide, by decide⟩

/-- NOP lies outside every list of writers. -/
theorem test_witness_RegistersHaveOnlyTheirWriters :
    exec .nop State.reset = .next (State.reset.answer .ok 0#64) ∧
    opcode .nop ∉ [0x01#8, 0x20#8, 0x21#8, 0x22#8, 0x23#8, 0x24#8] ∧
    opcode .nop ∉ [0x01#8, 0x30#8, 0x31#8, 0x32#8, 0x51#8] ∧ opcode .nop ∉ [0x01#8, 0x60#8] ∧
    opcode .nop ∉ [0x01#8, 0x61#8, 0x62#8, 0x63#8] ∧ opcode .nop ≠ 0x53#8 ∧
    opcode .nop ≠ 0x01#8 := ⟨rfl, by decide⟩

theorem test_witness_BuffersHaveOnlyTheirWriters :
    exec .nop State.reset = .next (State.reset.answer .ok 0#64) ∧
    opcode .nop ≠ 0x52#8 ∧ opcode .nop ∉ [0x01#8, 0x50#8, 0x52#8] ∧
    opcode .nop ∉ [0x11#8, 0x23#8, 0x41#8, 0x51#8] ∧
    opcode .nop ∉ [0x01#8, 0x11#8, 0x23#8, 0x41#8, 0x61#8, 0x62#8, 0x63#8] ∧
    opcode .nop ∉ [0x01#8, 0x65#8] ∧ opcode .nop ∉ [0x01#8, 0x65#8, 0x67#8] := ⟨rfl, by decide⟩

theorem test_witness_ParametersAndProgramAreOutOfReach :
    exec .nop State.reset = .next (State.reset.answer .ok 0#64) ∧
    step (presented 0#128) = .next (State.reset.answer .ok 0#64) := ⟨rfl, rfl⟩

theorem test_witness_StepRunsTheDecodedOperation :
    (presented 0#128).port = .command 0#128 :: [] ∧ decode 0#128 = .ok .nop ∧
    decode 0x04000000000000000000000000000000#128 = .error (.illegalOp 0x04#8) ∧
    State.reset.port = [] := by decide

/-- Both ends of every illegal range, and the legal opcodes beside them. -/
theorem test_witness_DecodeIsTotal :
    (∀ op ∈ [0x04#8, 0x0F#8, 0x12#8, 0x1F#8, 0x25#8, 0x2F#8, 0x33#8, 0x3F#8, 0x42#8, 0x4F#8,
      0x55#8, 0x5F#8, 0x68#8, 0xFF#8], IllegalOpcode (opField (mkWord op 0 0 0 0)).toNat) ∧
    (∀ op ∈ [0x00#8, 0x03#8, 0x10#8, 0x11#8, 0x20#8, 0x24#8, 0x30#8, 0x32#8, 0x40#8, 0x41#8,
      0x50#8, 0x54#8, 0x60#8, 0x67#8], ¬IllegalOpcode (opField (mkWord op 0 0 0 0)).toNat) ∧
    (presented 0x04000000000000000000000000000000#128).port =
      .command 0x04000000000000000000000000000000#128 :: [] := by decide

theorem test_witness_DecodeOfEncode :
    (Instr.tfld (.named .baud) 60#32 4#16).wf = true ∧ (Instr.rdr (.reserved 11#32)).wf = true := by
  decide

/-- From a state that holds a frame, one step of FFLUSH. -/
theorem test_witness_StepKeepsTheInvariants :
    Inv { received shortGood .ready with port := [.command (encode .fflush)] } ∧
    step { received shortGood .ready with port := [.command (encode .fflush)] } =
      .next (({ received shortGood .ready with rxlen := 0#9, fst := .hunt0 } : State).answer
        .ok 0#64) := ⟨by decide, rfl⟩

theorem test_witness_RunsAreSafe : Inv (received shortGood .ready) := by decide

end Sys2Proof.Tests
end

section
/-! The reset values of R44: each of the three ways to reach them, then the obligation. -/

namespace Sys2Proof.Machine

/-- The reset state's own fields are the table of R44. -/
theorem atResetValues_reset : AtResetValues State.reset :=
  have hvalid (k : Fin 13) : (State.reset.tel[k]).valid = false := by simp [State.reset]
  ⟨rfl, rfl, rfl, rfl, rfl, rfl, rfl, rfl, rfl, rfl, rfl, hvalid, rfl, rfl⟩

/-- The power-on input departs from the reset state only in WB, which R44 leaves unspecified, and in
the model's own `par` and `port`. -/
theorem atResetValues_powerOn (wb : List Byte) (s : State) : AtResetValues (powerOn wb s) :=
  atResetValues_reset

/-- SRST's reset clears every valid bit; what it keeps (WB, RXB, BMW, the payloads) is not in the
stated part of the table. -/
theorem atResetValues_softReset (s : State) : AtResetValues (softReset s) :=
  have hvalid (k : Fin 13) : ((softReset s).tel[k]).valid = false := by simp
  ⟨rfl, rfl, rfl, rfl, rfl, rfl, rfl, rfl, rfl, rfl, rfl, hvalid, rfl, rfl⟩

/-- Leaving a response touches no register of the table. -/
theorem atResetValues_answer (st : Status) (r : BitVec 64) (s : State) :
    AtResetValues (s.answer st r) ↔ AtResetValues s := Iff.rfl

/-- SRST in full (R216). -/
theorem exec_srst (s : State) : exec .srst s = .next ((softReset s).answer .ok 0#64) := rfl

/-- Settles O1, one reset at a time. -/
theorem resetLeavesTheStatedValues : Obligations.ResetLeavesTheStatedValues := by
  refine ⟨atResetValues_reset, atResetValues_powerOn, fun s => ?_⟩
  exact ⟨_, exec_srst s, (atResetValues_answer ..).mpr (atResetValues_softReset s)⟩

end Sys2Proof.Machine
end

section
/-! Out-of-range accesses (R52, R54): what it is to be out of range, the IndexFault of each operation
that takes a range, then the obligation. -/

namespace Sys2Proof.Machine

/-! ### Out of range -/

/-- A non-empty byte range that ends beyond the size, the sum taken in unbounded naturals (R52). -/
theorem bytesInRange_eq_false_iff (size : Nat) (a : BitVec 32) (n : BitVec 16) :
    bytesInRange size a n = false ↔ 0 < n.toNat ∧ size < a.toNat + n.toNat := by
  rw [← Bool.not_eq_true, bytesInRange_iff]
  omega

/-- A non-empty bit-field that ends beyond the last bit, the sum taken in unbounded naturals
(R52). -/
theorem bitsInRange_eq_false_iff (size : Nat) (a : BitVec 32) (n : BitVec 16) :
    bitsInRange size a n = false ↔ 0 < n.toNat ∧ 8 * size < a.toNat + n.toNat := by
  rw [← Bool.not_eq_true, bitsInRange_iff]
  omega

/-- Every buffer but RXB may be written (R53). -/
theorem writeTarget_named_of_ne_rxb {b : Buf} (hb : b ≠ .rxb) :
    writeTarget (.named b) = some b := by
  cases b with
  | wb => exact writeTarget_wb
  | rxb => exact absurd rfl hb
  | cb => exact writeTarget_cb

/-! ### The IndexFault of each operation -/

section
variable {s : State} {b : Buf} {a : BitVec 32} {n : BitVec 16}

/-- LDB outside the readable bytes (R211). -/
theorem exec_ldb_indexFault (h : bufSize s b ≤ a.toNat) :
    exec (.ldb (.named b) a) s = .next (s.raised .indexFault) := by
  simp [exec, execLdb, h]

/-- STB outside the readable bytes of a buffer it may write (R212). -/
theorem exec_stb_indexFault (v : Byte) (hb : b ≠ .rxb) (h : bufSize s b ≤ a.toNat) :
    exec (.stb (.named b) a v) s = .next (s.raised .indexFault) := by
  simp [exec, execStb, writeTarget_named_of_ne_rxb hb, h]

/-- BFGET of a field of legal length that is out of range (R104). -/
theorem exec_bfget_indexFault (hn : n.toNat ≤ Config.bfMaxLen)
    (h : bitsInRange (bufSize s b) a n = false) :
    exec (.bfget (.named b) a n) s = .next (s.raised .indexFault) := by
  simp [exec, execBfget, hn.not_gt, h]

/-- BFSET of a field of legal length that is out of range, in a buffer it may write (R106). -/
theorem exec_bfset_indexFault (d : BitVec 64) (hb : b ≠ .rxb) (hn : n.toNat ≤ Config.bfMaxLen)
    (h : bitsInRange (bufSize s b) a n = false) :
    exec (.bfset (.named b) a n d) s = .next (s.raised .indexFault) := by
  simp [exec, execBfset, writeTarget_named_of_ne_rxb hb, hn.not_gt, h]

/-- CRCBUF of bytes out of range (R122). -/
theorem exec_crcbuf_indexFault (h : bytesInRange (bufSize s b) a n = false) :
    exec (.crcbuf (.named b) a n) s = .next (s.raised .indexFault) := by
  simp [exec, execCrcbuf, h]

/-- CRCCHK of bytes out of range: the range is tested before the length and the trailer (R126,
R232). -/
theorem exec_crcchk_indexFault (h : bytesInRange (bufSize s b) a n = false) :
    exec (.crcchk (.named b) a n) s = .next (s.raised .indexFault) := by
  simp [exec, execCrcchk, h]

/-- SUMBUF of bytes out of range (R140). -/
theorem exec_sumbuf_indexFault (h : bytesInRange (bufSize s b) a n = false) :
    exec (.sumbuf (.named b) a n) s = .next (s.raised .indexFault) := by
  simp [exec, execSumbuf, h]

/-- FDEC of the bytes of WB or CB; of RXB it takes the held frame and no range (R160). -/
theorem exec_fdec_of_ne_rxb (hb : b ≠ .rxb) :
    exec (.fdec (.named b) a n) s =
      if bytesInRange (bufSize s b) a n then
        decodeFrame (fun j => (bufMem s b).read (a.toNat + j)) n.toNat s
      else raise .indexFault s := by
  cases b with
  | wb => rfl
  | rxb => exact absurd rfl hb
  | cb => rfl

/-- FDEC of bytes out of range: the range is tested before the frame is looked at (R160, R232). -/
theorem exec_fdec_indexFault (hb : b ≠ .rxb) (h : bytesInRange (bufSize s b) a n = false) :
    exec (.fdec (.named b) a n) s = .next (s.raised .indexFault) := by
  simp [exec_fdec_of_ne_rxb hb, h]

/-- CRCAPP without room for the two trailer bytes, in a buffer it may write (R124). -/
theorem exec_crcapp_indexFault (hb : b ≠ .rxb) (h : bufSize s b < a.toNat + n.toNat + 2) :
    exec (.crcapp (.named b) a n) s = .next (s.raised .indexFault) := by
  simp [exec, execCrcapp, writeTarget_named_of_ne_rxb hb, h]

/-- TFLD of a field of legal length beyond the 8 payload bytes: tested before the record's valid bit
(R196, R232). -/
theorem exec_tfld_indexFault (k : Kind) (hn : n.toNat ≤ Config.bfMaxLen)
    (h : bitsInRange 8 a n = false) :
    exec (.tfld (.named k) a n) s = .next (s.raised .indexFault) := by
  simp [exec, execTfld, hn.not_gt, h]

end

/-- Settles O10, one operation at a time. -/
theorem outOfRangeAccessFaults : Obligations.OutOfRangeAccessFaults := by
  intro s b a n d v
  refine ⟨exec_ldb_indexFault, fun hout hb => exec_stb_indexFault v hb hout,
    fun hn hpos hout => ?bitField, fun hpos hout => ?byteRange,
    fun hout hb => exec_crcapp_indexFault hb hout, fun k hn hpos hout => ?record⟩
  case bitField =>
    have hbits := (bitsInRange_eq_false_iff (bufSize s b) a n).mpr ⟨hpos, hout⟩
    exact ⟨exec_bfget_indexFault hn hbits, fun hb => exec_bfset_indexFault d hb hn hbits⟩
  case byteRange =>
    have hbytes := (bytesInRange_eq_false_iff (bufSize s b) a n).mpr ⟨hpos, hout⟩
    exact ⟨exec_crcbuf_indexFault hbytes, exec_crcchk_indexFault hbytes,
      exec_sumbuf_indexFault hbytes, fun hb => exec_fdec_indexFault hb hbytes⟩
  case record =>
    exact exec_tfld_indexFault k hn ((bitsInRange_eq_false_iff 8 a n).mpr ⟨hpos, hout⟩)

end Sys2Proof.Machine
end

section
/-! The decoder is total (R79): what a word decodes to, what a step does with it, then the
obligation. -/

namespace Sys2Proof.Machine

/-! ### The selecting fields of a word -/

/-- The `sel` field as a buffer is well formed (R50, R80). -/
theorem wf_bufSelOf (w : CmdWord) : BufSel.wf (bufSelOf w) = true :=
  wf_decodeSel (by decide) _

/-- A record kind field is well formed (R38, R80). -/
theorem wf_decodeSel_kind (v : BitVec 8) : KindSel.wf (decodeSel Kind.ofNum v) = true :=
  wf_decodeSel (by decide) _

/-- A register number field is well formed (R41, R80). -/
theorem wf_decodeSel_reg (v : BitVec 32) : RegSel.wf (decodeSel Reg.ofNum v) = true :=
  wf_decodeSel (by decide) _

/-- A word index field is well formed (R166, R80). -/
theorem wf_decodeSel_word (v : BitVec 32) : WordSel.wf (decodeSel BmuWord.ofNum v) = true :=
  wf_decodeSel (by decide) _

/-! ### What a word decodes to -/

section
variable {w : CmdWord} {i : Instr} {e : DecodeError}

/-- The decoder yields well-formed operations only. -/
theorem wf_of_decode (h : decode w = .ok i) : i.wf = true := by
  unfold decode at h
  split at h <;> cases h
  all_goals simp only [Instr.wf, wf_bufSelOf, wf_decodeSel_kind, wf_decodeSel_reg,
    wf_decodeSel_word]

/-- The operation a word decodes to is the one its `op` field names (R78). -/
theorem opcode_of_decode (h : decode w = .ok i) : opcode i = opField w := by
  unfold decode at h
  split at h <;> cases h
  all_goals exact Eq.symm ‹opField w = _›

/-- A refusal names the opcode of the word. -/
theorem eq_illegalOp_of_decode (h : decode w = .error e) : e = .illegalOp (opField w) := by
  unfold decode at h
  split at h <;> cases h
  rfl

/-- The ranges of R79 hold none of the 29 opcodes. -/
theorem not_illegalOpcode_opcode (i : Instr) : ¬IllegalOpcode (opcode i).toNat := by
  cases i <;> simp [IllegalOpcode, opcode]

/-- The ranges of R79 hold every opcode but the 29. -/
theorem exists_decode_of_not_illegalOpcode (h : ¬IllegalOpcode (opField w).toNat) :
    ∃ i, decode w = .ok i := by
  unfold decode
  split
  case h_30 =>
    simp only [imp_false] at *
    bv_omega
  all_goals exact ⟨_, rfl⟩

/-- The decoder refuses exactly the opcodes in the ranges of R79, by name. -/
theorem decode_eq_error_iff :
    decode w = .error e ↔ IllegalOpcode (opField w).toNat ∧ e = .illegalOp (opField w) := by
  constructor
  · intro h
    refine ⟨?_, eq_illegalOp_of_decode h⟩
    by_contra hlegal
    obtain ⟨i, hi⟩ := exists_decode_of_not_illegalOpcode hlegal
    cases h.symm.trans hi
  · rintro ⟨hillegal, rfl⟩
    cases hd : decode w with
    | ok i => exact absurd (opcode_of_decode hd ▸ hillegal) (not_illegalOpcode_opcode i)
    | error e => rw [eq_illegalOp_of_decode hd]

/-! ### What a step does with a word -/

variable {s : State} {rest : List Input}

/-- A word that is an operation is executed. -/
theorem step_of_decode_ok (hport : s.port = .command w :: rest) (hd : decode w = .ok i) :
    step s = exec i { s with port := rest } := by
  simp [step, nextInput, hport, hd]

/-- A word that is no operation answers ILLEGAL_OP (R79). -/
theorem step_of_decode_error (hport : s.port = .command w :: rest) (hd : decode w = .error e) :
    step s = .next (({ s with port := rest } : State).raised .illegalOp) := by
  simp [step, nextInput, hport, hd, illegalOp]

end

/-- Settles O55: the decoder refuses exactly R79's ranges, and what it accepts is well formed. -/
theorem decodeIsTotal : Obligations.DecodeIsTotal := by
  intro w
  refine ⟨fun hillegal => ?refused, fun hlegal => ?accepted⟩
  case refused =>
    have hd := decode_eq_error_iff.mpr ⟨hillegal, rfl⟩
    exact ⟨hd, fun s rest hport => step_of_decode_error hport hd⟩
  case accepted =>
    obtain ⟨i, hd⟩ := exists_decode_of_not_illegalOpcode hlegal
    exact ⟨i, hd, wf_of_decode hd, opcode_of_decode hd⟩

end Sys2Proof.Machine
end

section
/-! The reserved operand values (R80): which they are for each operation, that the decoder finds
them exactly in the words R80 lists, that `exec` answers OperandFault to them and to nothing else,
then the obligation. -/

namespace Sys2Proof.Machine

/-! ### Reserved numbers -/

/-- What a selecting field names is what its number names. -/
@[simp] theorem named_decodeSel {α : Type} {w : Nat} (ofNum : Nat → Option α) (v : BitVec w) :
    named (decodeSel ofNum v) = ofNum v.toNat := by
  unfold decodeSel
  cases ofNum v.toNat <;> rfl

/-- The reserved buffer numbers (R80). -/
theorem bufOfNum_eq_none_iff (k : Nat) : Buf.ofNum k = none ↔ 3 ≤ k := by
  unfold Buf.ofNum
  split
  case h_4 =>
    simp only [imp_false, true_iff] at *
    omega
  all_goals simp

/-- The number of the scanner's buffer (R50). -/
theorem bufOfNum_eq_rxb_iff (k : Nat) : Buf.ofNum k = some .rxb ↔ k = 1 := by
  unfold Buf.ofNum
  split <;> simp
  assumption

/-- The reserved record kinds (R80). -/
theorem kindOfNum_eq_none_iff (k : Nat) : Kind.ofNum k = none ↔ 13 ≤ k := by
  unfold Kind.ofNum
  split
  case h_14 =>
    simp only [imp_false, true_iff] at *
    omega
  all_goals simp

/-- The reserved register numbers (R80). -/
theorem regOfNum_eq_none_iff (k : Nat) : Reg.ofNum k = none ↔ 11 ≤ k := by
  unfold Reg.ofNum
  split
  case h_12 =>
    simp only [imp_false, true_iff] at *
    omega
  all_goals simp

/-- The reserved word indices (R80). -/
theorem wordOfNum_eq_none_iff (k : Nat) : BmuWord.ofNum k = none ↔ 10 ≤ k := by
  unfold BmuWord.ofNum
  split
  case h_11 =>
    simp only [imp_false, true_iff] at *
    omega
  all_goals simp

/-- What a write-class operation may not write: a reserved buffer number, and RXB (R53). -/
theorem writeTarget_eq_none_iff (sel : BufSel) :
    writeTarget sel = none ↔ named sel = none ∨ named sel = some .rxb := by
  cases sel with
  | named b => cases b <;> simp
  | reserved v => simp

/-- The buffer numbers an operation that reads refuses (R80). -/
theorem named_bufSelOf_eq_none_iff (w : CmdWord) :
    named (bufSelOf w) = none ↔ 3 ≤ (selField w).toNat := by
  rw [bufSelOf, named_decodeSel, bufOfNum_eq_none_iff]

/-- The buffer numbers a write-class operation refuses (R53, R80). -/
theorem writeTarget_bufSelOf_eq_none_iff (w : CmdWord) :
    writeTarget (bufSelOf w) = none ↔ 3 ≤ (selField w).toNat ∨ selField w = 1#8 := by
  rw [writeTarget_eq_none_iff, named_bufSelOf_eq_none_iff, bufSelOf, named_decodeSel,
    bufOfNum_eq_rxb_iff, ← BitVec.toNat_inj, BitVec.toNat_ofNat]

/-! ### Reserved operands of an operation -/

/-- An operation with a reserved operand value (R80), said of its operands; `ReservedOperand` says it
of the fields of the word, and `operandReserved_iff_of_decode` that the two agree. -/
def OperandReserved : Instr → Prop
  | .rdr reg => named reg = none
  | .ldb sel _ => named sel = none
  | .stb sel _ _ => writeTarget sel = none
  | .crcbuf sel _ _ => named sel = none
  | .crcapp sel _ _ => writeTarget sel = none
  | .crcchk sel _ _ => named sel = none
  | .sumbuf sel _ _ => named sel = none
  | .bfget sel _ n => named sel = none ∨ Config.bfMaxLen < n.toNat
  | .bfset sel _ n _ => writeTarget sel = none ∨ Config.bfMaxLen < n.toNat
  | .fdec sel _ _ => named sel = none
  | .fword k => named k = none
  | .cld _ dlc _ => 8 < dlc.toNat
  | .tfld kind _ n => named kind = none ∨ Config.bfMaxLen < n.toNat
  | _ => False

/-- The decoded operation has a reserved operand exactly when R80 lists the fields of the word. -/
theorem operandReserved_iff_of_decode {w : CmdWord} {i : Instr} (h : decode w = .ok i) :
    OperandReserved i ↔ ReservedOperand (opField w) (selField w) (nField w) (aField w) := by
  unfold decode at h
  split at h <;> cases h
  all_goals
    rw [‹opField w = _›]
    simp [OperandReserved, ReservedOperand, named_bufSelOf_eq_none_iff,
      writeTarget_bufSelOf_eq_none_iff, kindOfNum_eq_none_iff, regOfNum_eq_none_iff,
      wordOfNum_eq_none_iff, Config.bfMaxLen, or_assoc]

/-- R80 lists no operand of an illegal opcode. -/
theorem not_reservedOperand_of_illegalOpcode {op sel : BitVec 8} {n : BitVec 16} {a : BitVec 32}
    (h : IllegalOpcode op.toNat) : ¬ReservedOperand op sel n a := by
  simp only [ReservedOperand, List.mem_cons, List.not_mem_nil, or_false]
  unfold IllegalOpcode at h
  bv_omega

/-! ### The fault -/

/-- A reserved operand raises OperandFault, whatever else would fail (R80, R232). -/
theorem exec_of_operandReserved {i : Instr} (s : State) (h : OperandReserved i) :
    exec i s = .next (s.raised .operandFault) := by
  cases i with
  | rdr reg => simp [exec, execRdr, show named reg = none from h]
  | ldb sel a => simp [exec, execLdb, show named sel = none from h]
  | stb sel a b => simp [exec, execStb, show writeTarget sel = none from h]
  | crcbuf sel a n => simp [exec, execCrcbuf, show named sel = none from h]
  | crcapp sel a n => simp [exec, execCrcapp, show writeTarget sel = none from h]
  | crcchk sel a n => simp [exec, execCrcchk, show named sel = none from h]
  | sumbuf sel a n => simp [exec, execSumbuf, show named sel = none from h]
  | bfget sel a n =>
    rcases h with hsel | hn
    · simp [exec, execBfget, hsel]
    · cases hsel : named sel <;> simp [exec, execBfget, hsel, hn]
  | bfset sel a n d =>
    rcases h with hsel | hn
    · simp [exec, execBfset, hsel]
    · cases hsel : writeTarget sel <;> simp [exec, execBfset, hsel, hn]
  | fdec sel a n => simp [exec, execFdec, show named sel = none from h]
  | fword k => simp [exec, execFword, show named k = none from h]
  | cld id dlc payload => simp [exec, execCld, show 8 < dlc.toNat from h]
  | tfld kind a n =>
    rcases h with hkind | hn
    · simp [exec, execTfld, hkind]
    · cases hkind : named kind <;> simp [exec, execTfld, hkind, hn]
  | _ => exact h.elim

/-! ### No other OperandFault -/

/-- An operation ends, and not with OperandFault. -/
def NoOperandFault (x : Res) : Prop :=
  ∃ t, x = .next t ∧ ∀ r, t.rsp ≠ some ⟨.raised .operandFault, r⟩

/-- An answer is as good as its status. -/
@[simp] theorem noOperandFault_answer (s : State) (st : Status) (r : BitVec 64) :
    NoOperandFault (.next (s.answer st r)) ↔ st ≠ .raised .operandFault := by
  simp [NoOperandFault]

/-- Any fault but OperandFault will do. -/
@[simp] theorem noOperandFault_raised (s : State) (f : EngFault) :
    NoOperandFault (.next (s.raised f)) ↔ f ≠ .operandFault := by
  simp [NoOperandFault]

/-- A test that picks between two endings. -/
@[simp] theorem noOperandFault_ite (c : Prop) [Decidable c] (x y : Res) :
    NoOperandFault (if c then x else y) ↔
      (c → NoOperandFault x) ∧ (¬c → NoOperandFault y) := by
  split <;> simp [*]

/-- The checks of a response frame raise frame errors only (R160). -/
theorem frameError_ne_operandFault (f : Nat → Byte) (len off : Nat) :
    frameError f len off ≠ some .operandFault := by
  unfold frameError
  repeat' split
  all_goals simp

/-- Decoding a frame checks the frame, not the operands (R160). -/
@[simp] theorem noOperandFault_decodeFrame (f : Nat → Byte) (len : Nat) (s : State) :
    NoOperandFault (decodeFrame f len s) := by
  rcases decodeFrame_cases f len s with ⟨e, he, hdec⟩ | ⟨-, hdec⟩
  · rw [hdec, noOperandFault_raised]
    rintro rfl
    exact frameError_ne_operandFault _ _ _ he
  · simp [hdec]

/-- FDEC of a buffer the spec names (R160). -/
theorem noOperandFault_fdec_named (s : State) (b : Buf) (a : BitVec 32) (n : BitVec 16) :
    NoOperandFault (exec (.fdec (.named b) a n) s) := by
  by_cases hb : b = .rxb
  · subst hb
    simp [exec, execFdec]
  · simp [exec_fdec_of_ne_rxb hb]

/-- Without a reserved operand no operation answers OperandFault (R80). -/
theorem noOperandFault_exec {i : Instr} (s : State) (h : ¬OperandReserved i) :
    NoOperandFault (exec i s) := by
  cases i with
  | rdr reg =>
    obtain ⟨x, hreg⟩ := Option.ne_none_iff_exists'.mp h
    simp [exec, execRdr, hreg]
  | ldb sel a =>
    obtain ⟨b, hsel⟩ := Option.ne_none_iff_exists'.mp h
    simp [exec, execLdb, hsel]
  | stb sel a v =>
    obtain ⟨b, hsel⟩ := Option.ne_none_iff_exists'.mp h
    simp [exec, execStb, hsel]
  | crcbuf sel a n =>
    obtain ⟨b, hsel⟩ := Option.ne_none_iff_exists'.mp h
    simp [exec, execCrcbuf, respondCrc, hsel]
  | crcapp sel a n =>
    obtain ⟨b, hsel⟩ := Option.ne_none_iff_exists'.mp h
    simp [exec, execCrcapp, respondCrc, hsel]
  | crcchk sel a n =>
    obtain ⟨b, hsel⟩ := Option.ne_none_iff_exists'.mp h
    simp [exec, execCrcchk, respondCrc, hsel]
  | sumbuf sel a n =>
    obtain ⟨b, hsel⟩ := Option.ne_none_iff_exists'.mp h
    simp [exec, execSumbuf, respondSum, hsel]
  | bfget sel a n =>
    obtain ⟨hsel, hn⟩ := not_or.mp h
    obtain ⟨b, hsel⟩ := Option.ne_none_iff_exists'.mp hsel
    simp [exec, execBfget, hsel, hn]
  | bfset sel a n d =>
    obtain ⟨hsel, hn⟩ := not_or.mp h
    obtain ⟨b, hsel⟩ := Option.ne_none_iff_exists'.mp hsel
    simp [exec, execBfset, hsel, hn]
  | fdec sel a n =>
    cases sel with
    | named b => exact noOperandFault_fdec_named s b a n
    | reserved v => exact absurd rfl h
  | fword k =>
    obtain ⟨x, hk⟩ := Option.ne_none_iff_exists'.mp h
    simp [exec, execFword, hk]
  | cld id dlc payload => simp [exec, execCld, show ¬8 < dlc.toNat from h]
  | tfld kind a n =>
    obtain ⟨hkind, hn⟩ := not_or.mp h
    obtain ⟨k, hkind⟩ := Option.ne_none_iff_exists'.mp hkind
    simp [exec, execTfld, hkind, hn]
  | cdec =>
    cases hk : frameKind s with
    | none => simp [exec, execCdec, hk]
    | some k => simp [exec, execCdec, hk]
  | fpush b => exact (noOperandFault_answer ..).mpr (by split <;> simp)
  | nop | srst | eclr | crcinit | crcupd | suminit | sumupd | fflush | freq | cmdset | cenc
  | cencoff | crd | tack => exact (noOperandFault_answer ..).mpr (by simp)

/-- Settles O9, through the operation the word decodes to. -/
theorem reservedOperandsFault : Obligations.ReservedOperandsFault := by
  intro s rest op sel n a d hport
  cases hd : decode (mkWord op sel n a d) with
  | error e =>
    obtain ⟨hillegal, -⟩ := decode_eq_error_iff.mp hd
    rw [opField_mkWord] at hillegal
    refine ⟨fun hres => absurd hres (not_reservedOperand_of_illegalOpcode hillegal), fun _ => ?_⟩
    rw [step_of_decode_error hport hd]
    exact (noOperandFault_raised ..).mpr (by decide)
  | ok i =>
    have hiff := operandReserved_iff_of_decode hd
    simp only [opField_mkWord, selField_mkWord, nField_mkWord, aField_mkWord] at hiff
    rw [step_of_decode_ok hport hd, ← hiff]
    exact ⟨exec_of_operandReserved _, noOperandFault_exec _⟩

end Sys2Proof.Machine
end

section
/-! The bit-field codec's operations (R100 to R106): what their words decode to, how they end, what
they do bit by bit, then the two obligations. -/

namespace Sys2Proof.Machine

/-! ### Encoding -/

/-- The words of BFGET (R104); the `d` field is ignored (R71). -/
theorem encodes_bfget :
    Encodes 0x40#8 fun sel n a _ => .bfget (decodeSel Buf.ofNum sel) a n := by
  intro sel n a d
  simp [decode, bufSelOf]

/-- The words of BFSET (R106). -/
theorem encodes_bfset :
    Encodes 0x41#8 fun sel n a d => .bfset (decodeSel Buf.ofNum sel) a n d := by
  intro sel n a d
  simp [decode, bufSelOf]

/-! ### How the operations end -/

section
variable {s : State} {b : Buf} {a : BitVec 32} {n : BitVec 16}

/-- BFGET of a field in range answers the bits of the field (R104). -/
theorem exec_bfget_ok (hn : n.toNat ≤ Config.bfMaxLen)
    (h : bitsInRange (bufSize s b) a n = true) :
    exec (.bfget (.named b) a n) s =
      .next (s.answer .ok (bfGet (bufMem s b) a.toNat n.toNat)) := by
  simp [exec, execBfget, hn.not_gt, h]

/-- BFSET of a field in range, in a buffer it may write, writes the field (R106). -/
theorem exec_bfset_ok (d : BitVec 64) (hb : b ≠ .rxb) (hn : n.toNat ≤ Config.bfMaxLen)
    (h : bitsInRange (bufSize s b) a n = true) :
    exec (.bfset (.named b) a n d) s =
      .next ((setBuf s b (bfSet (bufMem s b) a.toNat n.toNat d)).answer .ok 0#64) := by
  simp [exec, execBfset, writeTarget_named_of_ne_rxb hb, hn.not_gt, h]

/-- A field that is not out of range is in range. -/
theorem bitsInRange_of_not_beyond {size : Nat}
    (h : ¬(0 < n.toNat ∧ 8 * size < a.toNat + n.toNat)) : bitsInRange size a n = true := by
  rwa [← bitsInRange_eq_false_iff, Bool.not_eq_false] at h

end

/-- BFGET in full: the length is tested first, then the range (R104). -/
theorem exec_bfget_named (s : State) (b : Buf) (a : BitVec 32) (n : BitVec 16) :
    exec (.bfget (.named b) a n) s = .next
      (if 64 < n.toNat then s.raised .operandFault
      else if 0 < n.toNat ∧ 8 * bufSize s b < a.toNat + n.toNat then s.raised .indexFault
      else s.answer .ok (bfGet (bufMem s b) a.toNat n.toNat)) := by
  split_ifs with hlong hout
  · exact exec_of_operandReserved s (.inr hlong)
  · exact exec_bfget_indexFault (not_lt.mp hlong) ((bitsInRange_eq_false_iff ..).mpr hout)
  · exact exec_bfget_ok (not_lt.mp hlong) (bitsInRange_of_not_beyond hout)

/-- BFSET in full on a buffer it may write: nothing is written before both tests pass (R106). -/
theorem exec_bfset_named (s : State) {b : Buf} (a : BitVec 32) (n : BitVec 16) (d : BitVec 64)
    (hb : b ≠ .rxb) :
    exec (.bfset (.named b) a n d) s = .next
      (if 64 < n.toNat then s.raised .operandFault
      else if 0 < n.toNat ∧ 8 * bufSize s b < a.toNat + n.toNat then s.raised .indexFault
      else (setBuf s b (bfSet (bufMem s b) a.toNat n.toNat d)).answer .ok 0#64) := by
  split_ifs with hlong hout
  · exact exec_of_operandReserved s (.inr hlong)
  · exact exec_bfset_indexFault d hb (not_lt.mp hlong) ((bitsInRange_eq_false_iff ..).mpr hout)
  · exact exec_bfset_ok d hb (not_lt.mp hlong) (bitsInRange_of_not_beyond hout)

/-! ### Bits and bytes of the buffer -/

/-- The bit of R56 is the bit the codec reads. -/
theorem bitOf_eq_bit (m : Memory) (p : Nat) : bitOf m p = m.bit p := rfl

/-- `bf_set` leaves every byte that shares no bit with the field (R101). -/
theorem read_bfSet_of_disjoint (m : Memory) {start len j : Nat} (v : BitVec 64)
    (h : 8 * j + 8 ≤ start ∨ start + len ≤ 8 * j) :
    (bfSet m start len v).read j = m.read j := by
  refine Memory.read_eq_of_bits fun i hi => ?_
  have houtside : ¬(start ≤ 8 * j + i ∧ 8 * j + i < start + len) := by omega
  rw [bit_bfSet, if_neg houtside]

/-! ### The obligations -/

/-- Settles O23: the result is `bf_get` of the buffer. -/
theorem bfgetReadsTheField : Obligations.BfgetReadsTheField := by
  refine ⟨encodes_bfget, fun s a n => ⟨fun v => ?reserved, fun b => ?named⟩⟩
  case reserved =>
    exact exec_of_operandReserved s (.inl (named_reserved v))
  case named =>
    refine ⟨bfGet (bufMem s b) a.toNat n.toNat, fun hn i => ?_, exec_bfget_named s b a n⟩
    rw [bitOf_eq_bit, getLsbD_bfGet _ _ _ _ hn]

/-- Settles O24: the new content is `bf_set` of the buffer. -/
theorem bfsetWritesTheField : Obligations.BfsetWritesTheField := by
  refine ⟨encodes_bfset, fun s a n d => ⟨fun v => ?reserved, ?rxb, fun b hb => ?writable⟩⟩
  case reserved =>
    exact exec_of_operandReserved s (.inl (writeTarget_reserved v))
  case rxb =>
    exact exec_of_operandReserved s (.inl writeTarget_rxb)
  case writable =>
    refine ⟨bfSet (bufMem s b) a.toNat n.toNat d, fun p => ?_,
      fun j => read_bfSet_of_disjoint (bufMem s b) d, exec_bfset_named s a n d hb⟩
    rw [bitOf_eq_bit, bitOf_eq_bit, bit_bfSet]

end Sys2Proof.Machine
end

section
/-! The CRC unit's operations (R118 to R126): what their words decode to, how they end, the trailer
CRCAPP writes, then the four obligations. -/

namespace Sys2Proof.Machine

/-! ### Encoding -/

/-- The words of CRCINIT (R118); every other field is ignored (R71). -/
theorem encodes_crcinit : Encodes 0x20#8 fun _ _ _ _ => .crcinit := by
  intro sel n a d
  simp [decode]

/-- The words of CRCUPD (R120): of `d` only the low byte counts. -/
theorem encodes_crcupd : Encodes 0x21#8 fun _ _ _ d => .crcupd (d.extractLsb' 0 8) := by
  intro sel n a d
  simp [decode, dByte]

/-- The words of CRCBUF (R122); the `d` field is ignored (R71). -/
theorem encodes_crcbuf :
    Encodes 0x22#8 fun sel n a _ => .crcbuf (decodeSel Buf.ofNum sel) a n := by
  intro sel n a d
  simp [decode, bufSelOf]

/-- The words of CRCAPP (R124); the `d` field is ignored (R71). -/
theorem encodes_crcapp :
    Encodes 0x23#8 fun sel n a _ => .crcapp (decodeSel Buf.ofNum sel) a n := by
  intro sel n a d
  simp [decode, bufSelOf]

/-- The words of CRCCHK (R126); the `d` field is ignored (R71). -/
theorem encodes_crcchk :
    Encodes 0x24#8 fun sel n a _ => .crcchk (decodeSel Buf.ofNum sel) a n := by
  intro sel n a d
  simp [decode, bufSelOf]

/-! ### The message and its trailer -/

/-- The byte sequence the claims speak of is the one the CRC unit reads. -/
theorem rangeOf_eq_bytes (m : Memory) (j n : Nat) : rangeOf m j n = m.bytes j n :=
  (m.bytes_eq j n).symm

/-- The two trailer bytes of `c`, low byte first, written from index `i` on (R123). -/
def withTrailer (m : Memory) (i : Nat) (c : BitVec 16) : Memory :=
  m.writeBytes i [crcLo c, crcHi c]

/-- Writing a trailer changes the two bytes it stands in and no other. -/
theorem read_withTrailer (m : Memory) (i j : Nat) (c : BitVec 16) :
    (withTrailer m i c).read j =
      if j = i then crcLo c else if j = i + 1 then crcHi c else m.read j := by
  simp only [withTrailer, Memory.writeBytes, Memory.read_write]
  by_cases hlo : j = i
  · simp [hlo]
  · simp [hlo]

/-- The last two bytes of the frame `a .. a+n-1` are the trailer of `c` (R126). -/
abbrev TrailerMatches (m : Memory) (a : BitVec 32) (n : BitVec 16) (c : BitVec 16) : Prop :=
  m.read (a.toNat + n.toNat - 2) = crcLo c ∧ m.read (a.toNat + n.toNat - 1) = crcHi c

/-! ### How the operations end -/

/-- CRCINIT in full (R118). -/
theorem exec_crcinit (s : State) :
    exec .crcinit s = .next (({ s with crc := 0xFFFF#16 } : State).answer .ok 0xFFFF#64) := rfl

/-- CRCUPD in full (R120). -/
theorem exec_crcupd (b : Byte) (s : State) :
    exec (.crcupd b) s = .next
      (({ s with crc := crcStep s.crc b } : State).answer .ok ((crcStep s.crc b).setWidth 64)) := rfl

section
variable {s : State} {b : Buf} {a : BitVec 32} {n : BitVec 16}

/-- CRCBUF of a range that is in range (R122). -/
theorem exec_crcbuf_ok (h : bytesInRange (bufSize s b) a n = true) :
    exec (.crcbuf (.named b) a n) s =
      respondCrc (crc16 ((bufMem s b).bytes a.toNat n.toNat)) s := by
  simp [exec, execCrcbuf, h]

/-- CRCAPP with room for the trailer, in a buffer it may write (R124). -/
theorem exec_crcapp_ok {c : BitVec 16} (hc : c = crc16 ((bufMem s b).bytes a.toNat n.toNat))
    (hb : b ≠ .rxb) (h : a.toNat + n.toNat + 2 ≤ bufSize s b) :
    exec (.crcapp (.named b) a n) s =
      respondCrc c (setBuf s b (withTrailer (bufMem s b) (a.toNat + n.toNat) c)) := by
  simp [exec, execCrcapp, writeTarget_named_of_ne_rxb hb, h.not_gt, withTrailer, hc]

/-- A byte range that is not out of range is in range. -/
theorem bytesInRange_of_not_beyond {size : Nat}
    (h : ¬(0 < n.toNat ∧ size < a.toNat + n.toNat)) : bytesInRange size a n = true := by
  rwa [← bytesInRange_eq_false_iff, Bool.not_eq_false] at h

/-- CRCCHK of a frame that is in range: first its length, then its trailer (R126, R232). -/
theorem exec_crcchk_of_inRange {c : BitVec 16}
    (hc : c = crc16 ((bufMem s b).bytes a.toNat (n.toNat - 2)))
    (h : bytesInRange (bufSize s b) a n = true) :
    exec (.crcchk (.named b) a n) s =
      if n.toNat < 3 then raise .feMbLen s
      else if TrailerMatches (bufMem s b) a n c then respondCrc c s
      else raise .feCrc s := by
  simp [exec, execCrcchk, h, hc]

end

/-! ### The obligations -/

/-- Settles O14: both operations are one unfolding of the unit. -/
theorem crcStreamingOperations : Obligations.CrcStreamingOperations :=
  ⟨encodes_crcinit, encodes_crcupd, fun s => ⟨exec_crcinit s, fun b => exec_crcupd b s⟩⟩

/-- Settles O15, by whether the range is in range. -/
theorem crcbufCoversItsRange : Obligations.CrcbufCoversItsRange := by
  refine ⟨encodes_crcbuf, fun s a n => ⟨fun v => ?reserved, fun b => ?named⟩⟩
  case reserved =>
    exact exec_of_operandReserved s (named_reserved v)
  case named =>
    rw [rangeOf_eq_bytes]
    split_ifs with hin
    · exact exec_crcbuf_ok ((bytesInRange_iff ..).mpr hin)
    · exact exec_crcbuf_indexFault ((bytesInRange_eq_false_iff ..).mpr (by omega))

/-- Settles O16: the new content is the old one with the trailer after the message. -/
theorem crcappAppendsTheTrailer : Obligations.CrcappAppendsTheTrailer := by
  refine ⟨encodes_crcapp, fun s a n => ⟨fun v => ?reserved, ?rxb, fun b hb => ?writable⟩⟩
  case reserved =>
    exact exec_of_operandReserved s (writeTarget_reserved v)
  case rxb =>
    exact exec_of_operandReserved s writeTarget_rxb
  case writable =>
    refine ⟨_, withTrailer (bufMem s b) (a.toNat + n.toNat) _, rfl,
      fun j => read_withTrailer _ _ j _, ?_⟩
    rw [rangeOf_eq_bytes]
    split_ifs with hfits
    · exact exec_crcapp_ok rfl hb hfits
    · exact exec_crcapp_indexFault hb (not_le.mp hfits)

/-- Settles O17: out of range first, then the cases of a frame in range. -/
theorem crcchkJudgesTheTrailer : Obligations.CrcchkJudgesTheTrailer := by
  refine ⟨encodes_crcchk, fun s a n => ⟨fun v => ?reserved, fun b => ⟨_, rfl, ?named⟩⟩⟩
  case reserved =>
    exact exec_of_operandReserved s (named_reserved v)
  case named =>
    rw [rangeOf_eq_bytes]
    have hchk (hout : ¬(0 < n.toNat ∧ bufSize s b < a.toNat + n.toNat)) :=
      exec_crcchk_of_inRange (s := s) rfl (bytesInRange_of_not_beyond hout)
    split_ifs with hout hshort htrailer
    · exact exec_crcchk_indexFault ((bytesInRange_eq_false_iff ..).mpr hout)
    · exact (hchk hout).trans (if_pos hshort)
    · exact (hchk hout).trans ((if_neg hshort).trans (if_pos htrailer))
    · exact (hchk hout).trans ((if_neg hshort).trans (if_neg htrailer))

end Sys2Proof.Machine
end

section
/-! The checksum unit's operations (R137 to R141): what their words decode to, how they end, the
bytes of a request that SUMBUF covers, then the three obligations. -/

namespace Sys2Proof.Machine

/-! ### Encoding -/

/-- The words of SUMINIT (R137); every other field is ignored (R71). -/
theorem encodes_suminit : Encodes 0x30#8 fun _ _ _ _ => .suminit := by
  intro sel n a d
  simp [decode]

/-- The words of SUMUPD (R138): of `d` only the low byte counts. -/
theorem encodes_sumupd : Encodes 0x31#8 fun _ _ _ d => .sumupd (d.extractLsb' 0 8) := by
  intro sel n a d
  simp [decode, dByte]

/-- The words of SUMBUF (R140); the `d` field is ignored (R71). -/
theorem encodes_sumbuf :
    Encodes 0x32#8 fun sel n a _ => .sumbuf (decodeSel Buf.ofNum sel) a n := by
  intro sel n a d
  simp [decode, bufSelOf]

/-! ### How the operations end -/

/-- SUMINIT in full (R137). -/
theorem exec_suminit (s : State) :
    exec .suminit s = .next (({ s with sum := 0#8 } : State).answer .ok 0#64) := rfl

/-- SUMUPD in full (R138). -/
theorem exec_sumupd (b : Byte) (s : State) :
    exec (.sumupd b) s = .next
      (({ s with sum := s.sum + b } : State).answer .ok ((s.sum + b).setWidth 64)) := rfl

/-- SUMBUF of a range that is in range (R140). -/
theorem exec_sumbuf_ok {s : State} {b : Buf} {a : BitVec 32} {n : BitVec 16}
    (h : bytesInRange (bufSize s b) a n = true) :
    exec (.sumbuf (.named b) a n) s =
      respondSum (sum8 ((bufMem s b).bytes a.toNat n.toNat)) s := by
  simp [exec, execSumbuf, h]

/-! ### A request in WB -/

/-- WB with the frame of a request written over its first bytes (R148). -/
def withRequest (m : Memory) (addr kind1 kind2 : Byte) : Memory :=
  m.writeBytes 0 (requestFrame addr kind1 kind2)

/-- FREQ in full: the frame in WB, its checksum in SUM and in the answer (R148). -/
theorem exec_freq (addr kind1 kind2 : Byte) (s : State) :
    exec (.freq addr kind1 kind2) s =
      respondSum (sum8 (requestBody addr kind1 kind2))
        { s with wb := withRequest s.wb addr kind1 kind2 } := rfl

/-- What stands in the middle of a written byte sequence is what one reads at its place. -/
theorem Memory.bytes_writeBytes_middle (m : Memory) (i : Nat) (pre mid post : List Byte) :
    (m.writeBytes i (pre ++ mid ++ post)).bytes (i + pre.length) mid.length = mid := by
  refine List.ext_getElem (Memory.bytes_length ..) fun k _ hk => ?_
  simp [Memory.bytes_eq, Memory.read_writeBytes, Nat.add_assoc, List.getElem?_append_right,
    List.getElem?_append_left hk, hk]

/-- The covered bytes of a request stand at indices 2 to 7 (R147). -/
theorem bytes_withRequest (m : Memory) (addr kind1 kind2 : Byte) :
    (withRequest m addr kind1 kind2).bytes 2 6 = requestBody addr kind1 kind2 := by
  simpa [withRequest, requestFrame, requestBody] using
    m.bytes_writeBytes_middle 0 [markA, markB] (requestBody addr kind1 kind2)
      [sum8 (requestBody addr kind1 kind2), markA, footB]

/-- The checksum byte of a request stands at index 8 (R147). -/
theorem read_withRequest_checksum (m : Memory) (addr kind1 kind2 : Byte) :
    (withRequest m addr kind1 kind2).read 8 = sum8 (requestBody addr kind1 kind2) := by
  simp [withRequest, requestFrame, requestBody, Memory.read_writeBytes]

/-- SUMBUF of the indices of a request's covered bytes is always in range (R140). -/
theorem exec_sumbuf_requestBytes (s : State) :
    exec (.sumbuf (.named .wb) 2#32 6#16) s = respondSum (sum8 (s.wb.bytes 2 6)) s :=
  exec_sumbuf_ok (show bytesInRange 256 2#32 6#16 = true by decide)

/-! ### The obligations -/

/-- Settles O20: both operations are one unfolding of the unit. -/
theorem sumStreamingOperations : Obligations.SumStreamingOperations :=
  ⟨encodes_suminit, encodes_sumupd, fun s =>
    ⟨exec_suminit s, fun b => ⟨s.sum + b, BitVec.toNat_add .., exec_sumupd b s⟩⟩⟩

/-- Settles O21: the sum is `sum8` of the range, left only when the range is in range. -/
theorem sumbufAddsItsRange : Obligations.SumbufAddsItsRange := by
  refine ⟨encodes_sumbuf, fun s a n => ⟨fun v => ?reserved, fun b => ⟨_, toNat_sum8 _, ?named⟩⟩⟩
  case reserved =>
    exact exec_of_operandReserved s (named_reserved v)
  case named =>
    rw [rangeOf_eq_bytes]
    split_ifs with hin
    · exact exec_sumbuf_ok ((bytesInRange_iff ..).mpr hin)
    · exact exec_sumbuf_indexFault ((bytesInRange_eq_false_iff ..).mpr (by omega))

/-- Settles O22: SUMBUF covers the body of the request, and the byte after the body is its `sum8`. -/
theorem sumbufOfARequestIsItsChecksum : Obligations.SumbufOfARequestIsItsChecksum := by
  intro s addr kind1 kind2
  refine ⟨_, _, exec_freq addr kind1 kind2 s, exec_sumbuf_requestBytes _, ?_⟩
  simp [bytes_withRequest, read_withRequest_checksum]

end Sys2Proof.Machine
end

section
/-! The framer's operations (R146 to R168): what their words decode to, the scanner state by state,
how the operations end, the parts of a response frame, then the six obligations. -/

namespace Sys2Proof.Machine

/-! ### Encoding -/

/-- The words of FFLUSH (R146); every other field is ignored (R71). -/
theorem encodes_fflush : Encodes 0x50#8 fun _ _ _ _ => .fflush := by
  intro sel n a d
  simp [decode]

/-- The words of FREQ (R148): the address in the low byte of `a`, the two kind bytes in `d`. -/
theorem encodes_freq :
    Encodes 0x51#8 fun _ _ a d =>
      .freq (a.extractLsb' 0 8) (d.extractLsb' 0 8) (d.extractLsb' 8 8) := by
  intro sel n a d
  simp [decode, dByte]

/-- The words of FPUSH (R150): of `d` only the low byte counts. -/
theorem encodes_fpush : Encodes 0x52#8 fun _ _ _ d => .fpush (d.extractLsb' 0 8) := by
  intro sel n a d
  simp [decode, dByte]

/-- The words of FDEC (R160); the `d` field is ignored (R71). -/
theorem encodes_fdec : Encodes 0x53#8 fun sel n a _ => .fdec (decodeSel Buf.ofNum sel) a n := by
  intro sel n a d
  simp [decode, bufSelOf]

/-- The words of FWORD (R168); of the fields only `a` counts. -/
theorem encodes_fword : Encodes 0x54#8 fun _ _ a _ => .fword (decodeSel BmuWord.ofNum a) := by
  intro sel n a d
  simp [decode]

/-! ### Requests -/

/-- FFLUSH in full (R146). -/
theorem exec_fflush (s : State) :
    exec .fflush s =
      .next (({ s with rxlen := 0#9, fst := .hunt0 } : State).answer .ok 0#64) := rfl

/-- The bytes of a request stand over the first bytes of WB, and the others stay (R148). -/
theorem read_withRequest (m : Memory) (addr kind1 kind2 : Byte) (j : Nat) :
    (withRequest m addr kind1 kind2).read j =
      ((requestFrame addr kind1 kind2)[j]?).getD (m.read j) := by
  simp [withRequest, Memory.read_writeBytes]

/-- A request is eleven bytes long (R147). -/
@[simp] theorem length_requestFrame (addr kind1 kind2 : Byte) :
    (requestFrame addr kind1 kind2).length = 11 := rfl

/-- The checksum of a request, on numbers (R147). -/
theorem toNat_sum8_requestBody (addr kind1 kind2 : Byte) :
    (sum8 (requestBody addr kind1 kind2)).toNat =
      (addr.toNat + 5 + 1 + addr.toNat + kind1.toNat + kind2.toNat) % 256 := by
  simp only [toNat_sum8, requestBody, List.map_cons, List.map_nil, List.sum_cons, List.sum_nil,
    BitVec.toNat_ofNat]
  omega

/-! ### The scanner, state by state -/

section
variable {s : State} {b : Byte}

/-- Hunting, only the first marker byte moves the scanner (R151). -/
theorem scanByte_of_hunt0 (h : s.fst = .hunt0) :
    scanByte b s = if b = markA then { s with fst := .hunt1 } else s := by
  simp [scanByte, h]

/-- Hunting with a pending first marker byte (R152). -/
theorem scanByte_of_hunt1 (h : s.fst = .hunt1) : scanByte b s = scanHunt1 b s := by
  simp [scanByte, h]

/-- Collecting a frame (R153). -/
theorem scanByte_of_collect (h : s.fst = .collect) : scanByte b s = scanCollect b s := by
  simp [scanByte, h]

/-- A held frame is not disturbed (R155). -/
theorem scanByte_of_ready (h : s.fst = .ready) : scanByte b s = s := by
  simp [scanByte, h]

end

/-- RXB with the two marker bytes written over its first bytes (R152). -/
def withMarker (m : Memory) : Memory := m.writeBytes 0 [markA, markB]

/-- Writing the marker changes the first two bytes and no other. -/
theorem read_withMarker (m : Memory) (j : Nat) :
    (withMarker m).read j = if j = 0 then markA else if j = 1 then markB else m.read j := by
  simp only [withMarker, Memory.writeBytes, Memory.read_write, Nat.zero_add]
  by_cases h : j = 0
  · simp [h]
  · simp [h]

/-- A byte after a pending first marker byte: open a frame, stay, or give up (R152). -/
theorem scanHunt1_eq (b : Byte) (s : State) :
    scanHunt1 b s =
      if b = markB then { s with rxb := withMarker s.rxb, rxlen := 2#9, fst := .collect }
      else if b = markA then { s with fst := .hunt1 }
      else { s with fst := .hunt0 } := rfl

/-- The state with one more byte behind the stored ones (R153). -/
def stored (b : Byte) (s : State) : State :=
  { s with rxb := s.rxb.write s.rxlen.toNat b, rxlen := s.rxlen + 1#9 }

/-- Storing a byte counts it, as long as nine bits hold the count. -/
theorem toNat_stored_rxlen {s : State} (b : Byte) (h : s.rxlen.toNat ≤ 260) :
    (stored b s).rxlen.toNat = s.rxlen.toNat + 1 := by
  simp only [stored, BitVec.toNat_add, BitVec.toNat_ofNat]
  omega

/-- Storing a byte changes the byte behind the stored ones and no other. -/
theorem read_stored_rxb (b : Byte) (s : State) (j : Nat) :
    (stored b s).rxb.read j = if j = s.rxlen.toNat then b else s.rxb.read j :=
  Memory.read_write ..

/-- The stored frame is not complete: its length byte is still to come, or the count has not
reached `E` (R153). -/
abbrev FrameOpen (s : State) : Prop :=
  s.rxlen.toNat < 4 ∨ s.rxlen.toNat < (s.rxb.read 3).toNat + 6

/-- The last two of the `E` bytes of the stored frame are the footer (R154). -/
abbrev FooterHeld (s : State) : Prop :=
  s.rxb.read ((s.rxb.read 3).toNat + 4) = markA ∧ s.rxb.read ((s.rxb.read 3).toNat + 5) = footB

/-- The end of a frame: accepted, or dropped with nothing but `E_RESYNC` (R154). -/
theorem scanFooter_eq (s : State) :
    scanFooter s =
      if FooterHeld s then { s with fst := .ready }
      else { s with rxlen := 0#9, fst := .hunt0, esr := s.esr ||| 0x0400#16 } := rfl

/-- One byte while collecting: store it, and judge the frame once it is complete (R153). -/
theorem scanCollect_eq (b : Byte) (s : State) :
    scanCollect b s = if FrameOpen (stored b s) then stored b s else scanFooter (stored b s) := rfl

/-! ### FPUSH -/

/-- FPUSH outside READY answers OK with the code of the new scanner state (R150). -/
theorem exec_fpush_ok {s t : State} {b : Byte} {r : BitVec 64} (hready : s.fst ≠ .ready)
    (ht : scanByte b s = t) (hr : t.fst.code.setWidth 64 = r) :
    exec (.fpush b) s = .next (t.answer .ok r) := by
  simp [exec, execFpush, hready, ht, hr]

/-- FPUSH while a frame is held drops the byte (R155). -/
theorem exec_fpush_of_ready {s : State} (b : Byte) (h : s.fst = .ready) :
    exec (.fpush b) s = .next (s.answer .busy 3#64) := by
  simp [exec, execFpush, scanByte_of_ready h, h, ScanState.code]

/-- FPUSH while hunting (R151). -/
theorem exec_fpush_of_hunt0 {s : State} (b : Byte) (h : s.fst = .hunt0) :
    exec (.fpush b) s = .next
      (if b = markA then ({ s with fst := .hunt1 } : State).answer .ok 1#64
      else s.answer .ok 0#64) := by
  have hready : s.fst ≠ .ready := by simp [h]
  split_ifs with hA
  · exact exec_fpush_ok hready ((scanByte_of_hunt0 h).trans (if_pos hA)) rfl
  · exact exec_fpush_ok hready ((scanByte_of_hunt0 h).trans (if_neg hA)) (by rw [h]; rfl)

/-- FPUSH while hunting with a pending first marker byte (R152). -/
theorem exec_fpush_of_hunt1 {s : State} (b : Byte) (h : s.fst = .hunt1) :
    exec (.fpush b) s = .next
      (if b = markB then
        ({ s with rxb := withMarker s.rxb, rxlen := 2#9, fst := .collect } : State).answer .ok 2#64
      else if b = markA then ({ s with fst := .hunt1 } : State).answer .ok 1#64
      else ({ s with fst := .hunt0 } : State).answer .ok 0#64) := by
  have hready : s.fst ≠ .ready := by simp [h]
  have hscan := (scanByte_of_hunt1 h).trans (scanHunt1_eq b s)
  split_ifs at hscan ⊢
  all_goals exact exec_fpush_ok hready hscan rfl

/-- FPUSH while collecting: the frame stays open, is accepted, or is dropped (R153, R154). -/
theorem exec_fpush_of_collect {s : State} (b : Byte) (h : s.fst = .collect) :
    exec (.fpush b) s = .next
      (if FrameOpen (stored b s) then (stored b s).answer .ok 2#64
      else if FooterHeld (stored b s) then
        ({ stored b s with fst := .ready } : State).answer .ok 3#64
      else
        ({ stored b s with rxlen := 0#9, fst := .hunt0,
                           esr := s.esr ||| 0x0400#16 } : State).answer .ok 0#64) := by
  have hready : s.fst ≠ .ready := by simp [h]
  have hscan := (scanByte_of_collect h).trans (scanCollect_eq b s)
  rw [scanFooter_eq] at hscan
  split_ifs at hscan ⊢
  · exact exec_fpush_ok hready hscan (by rw [stored, h]; rfl)
  · exact exec_fpush_ok hready hscan rfl
  · exact exec_fpush_ok hready hscan rfl

/-! ### Responses -/

/-- A payload word on numbers, high byte first (R165). -/
theorem toNat_payloadWord (f : Nat → Byte) (off k : Nat) :
    (payloadWord f off k).toNat =
      (f (off + 2 * k)).toNat * 256 + (f (off + 2 * k + 1)).toNat := by
  rw [payloadWord, BitVec.toNat_append,
    ← Nat.shiftLeft_add_eq_or_of_lt (f (off + 2 * k + 1)).isLt, Nat.shiftLeft_eq]

/-- The ten payload words, by index (R166). -/
theorem getElem_payloadWords (f : Nat → Byte) (off : Nat) (k : Fin 10) :
    (payloadWords f off)[k] = payloadWord f off k := by
  fin_cases k <;> rfl

/-- Decoding a frame in full: R161's checks in order, then the ten words (R160, R164). -/
theorem decodeFrame_eq (f : Nat → Byte) (len : Nat) (s : State) :
    decodeFrame f len s = .next
      (if len < 9 then s.raised .feLength
      else if f 0 ≠ markA ∨ f 1 ≠ markB then s.raised .feHeader
      else if f (len - 2) ≠ markA ∨ f (len - 1) ≠ footB then s.raised .feFooter
      else if f 4 ≠ 0x03#8 then s.raised .feCommand
      else if len < s.par.payloadOff + 22 then s.raised .fePayload
      else ({ s with bmw := payloadWords f s.par.payloadOff, bmv := true } : State).answer
        .ok 0#64) := by
  unfold decodeFrame frameError Config.rspCmdIdx
  split_ifs <;> rfl

/-- Byte `j` of the frame FDEC looks at: of RXB whatever is held, else from `a` on (R160). -/
def fdecByte (s : State) (b : Buf) (a : BitVec 32) (j : Nat) : Byte :=
  (bufMem s b).read ((if b = .rxb then 0 else a.toNat) + j)

/-- The length of the frame FDEC looks at: of RXB whatever is held, else `n` (R160). -/
def fdecLen (s : State) (b : Buf) (n : BitVec 16) : Nat :=
  if b = .rxb then s.rxlen.toNat else n.toNat

/-- FDEC of RXB without a held frame (R160). -/
theorem exec_fdec_empty {s : State} (a : BitVec 32) (n : BitVec 16) (h : s.fst ≠ .ready) :
    exec (.fdec (.named .rxb) a n) s = .next (s.answer .empty 0#64) := by
  simp [exec, execFdec, h]

/-- FDEC of a frame that is there: the held one, or bytes in range (R160). -/
theorem exec_fdec_frame {s : State} {b : Buf} {a : BitVec 32} {n : BitVec 16}
    (hheld : b = .rxb → s.fst = .ready)
    (hrange : b ≠ .rxb → bytesInRange (bufSize s b) a n = true) :
    exec (.fdec (.named b) a n) s = decodeFrame (fdecByte s b a) (fdecLen s b n) s := by
  by_cases hb : b = .rxb
  · subst hb
    have hbyte : fdecByte s .rxb a = s.rxb.read := by funext j; simp [fdecByte]
    simp [exec, execFdec, hheld rfl, hbyte, fdecLen]
  · have hbyte : fdecByte s b a = fun j => (bufMem s b).read (a.toNat + j) := by
      funext j; simp [fdecByte, hb]
    simp [exec_fdec_of_ne_rxb hb, hrange hb, hbyte, fdecLen, hb]

/-- FDEC in full: whether there is a frame to look at, then the frame (R160, R232). -/
theorem exec_fdec_named (s : State) (b : Buf) (a : BitVec 32) (n : BitVec 16) :
    exec (.fdec (.named b) a n) s =
      if b = .rxb ∧ s.fst ≠ .ready then .next (s.answer .empty 0#64)
      else if b ≠ .rxb ∧ 0 < n.toNat ∧ bufSize s b < a.toNat + n.toNat then
        .next (s.raised .indexFault)
      else decodeFrame (fdecByte s b a) (fdecLen s b n) s := by
  split_ifs with hempty hout
  · obtain ⟨rfl, hready⟩ := hempty
    exact exec_fdec_empty a n hready
  · obtain ⟨hb, hbeyond⟩ := hout
    exact exec_fdec_indexFault hb ((bytesInRange_eq_false_iff ..).mpr hbeyond)
  · refine exec_fdec_frame (fun hb => ?_) fun hb => bytesInRange_of_not_beyond fun hbeyond => ?_
    · exact of_not_not fun hready => hempty ⟨hb, hready⟩
    · exact hout ⟨hb, hbeyond⟩

/-! ### Decoded words -/

/-- Every index below ten names the word in that place of BMW (R166). -/
theorem exists_wordOfNum {j : Nat} (h : j < 10) :
    ∃ k, BmuWord.ofNum j = some k ∧ (k.num : Nat) = j := by
  interval_cases j <;> exact ⟨_, rfl, rfl⟩

/-- FWORD in full on a word the spec names (R168). -/
theorem exec_fword_named (k : BmuWord) (s : State) :
    exec (.fword (.named k)) s = .next
      (if s.bmv then s.answer .ok (wordValue s.bmw k) else s.answer .empty 0#64) := by
  cases h : s.bmv <;> simp [exec, execFword, h]

/-- Current and Temp keep their signed value (R166). -/
theorem toInt_wordValue {k : BmuWord} (bmw : Vector (BitVec 16) 10)
    (hk : (k.num : Nat) = 1 ∨ (k.num : Nat) = 6) :
    (wordValue bmw k).toInt = (bmw[k.num]).toInt := by
  cases k
  case current | temp => exact BitVec.toInt_signExtend_of_le (by decide)
  all_goals exact absurd hk (by decide)

/-- The other eight words keep their unsigned value (R166). -/
theorem toNat_wordValue {k : BmuWord} (bmw : Vector (BitVec 16) 10)
    (hk : ¬((k.num : Nat) = 1 ∨ (k.num : Nat) = 6)) :
    (wordValue bmw k).toNat = (bmw[k.num]).toNat := by
  cases k
  case current | temp => exact absurd (by decide) hk
  all_goals exact BitVec.toNat_setWidth_of_le (by decide)

/-! ### The obligations -/

/-- Settles O28: the flushed RXB has no readable byte. -/
theorem fflushEmptiesTheScanner : Obligations.FflushEmptiesTheScanner :=
  ⟨encodes_fflush, fun s => ⟨_, exec_fflush s, rfl, fun _ => exec_ldb_indexFault (Nat.zero_le _)⟩⟩

/-- Settles O29: the new content of WB is the old one with the request over its first bytes. -/
theorem freqBuildsTheRequest : Obligations.FreqBuildsTheRequest := by
  refine ⟨encodes_freq, fun s addr kind1 kind2 => ⟨sum8 (requestBody addr kind1 kind2),
    withRequest s.wb addr kind1 kind2, toNat_sum8_requestBody .., fun j v hv => ?frame,
    fun j hj => ?beyond, exec_freq addr kind1 kind2 s⟩⟩
  case frame =>
    have hframe : (requestFrame addr kind1 kind2)[j]? = some v := hv
    rw [read_withRequest, hframe, Option.getD_some]
  case beyond =>
    rw [read_withRequest, List.getElem?_eq_none (by simpa using hj), Option.getD_none]

/-- Settles O30, one scanner state at a time. -/
theorem fpushOutsideAFrame : Obligations.FpushOutsideAFrame := by
  refine ⟨encodes_fpush, fun s b => ⟨exec_fpush_of_hunt0 b, fun h => ?hunt1, exec_fpush_of_ready b⟩⟩
  refine ⟨withMarker s.rxb, read_withMarker _ 0, read_withMarker _ 1, fun j hj => ?_,
    exec_fpush_of_hunt1 b h⟩
  rw [read_withMarker, if_neg (by omega), if_neg (by omega)]

/-- Settles O31: the byte is stored, and the stored frame is open, accepted or dropped. -/
theorem fpushCollecting : Obligations.FpushCollecting := by
  intro s b hcollect _ hle
  exact ⟨(stored b s).rxb, (stored b s).rxlen, toNat_stored_rxlen b hle, read_stored_rxb b s,
    exec_fpush_of_collect b hcollect⟩

/-- Settles O34: whether there is a frame, then R161's checks on it. -/
theorem fdecValidatesAndUnpacks : Obligations.FdecValidatesAndUnpacks := by
  refine ⟨encodes_fdec, fun s a n => ⟨fun v => ?reserved, fun b F N off hoff hF hN => ?named⟩⟩
  case reserved =>
    exact exec_of_operandReserved s (named_reserved v)
  case named =>
    have hbyte : F = fdecByte s b a := hF
    have hlen : N = fdecLen s b n := hN
    subst hoff
    refine ⟨payloadWords F s.par.payloadOff, fun k => ?words, ?outcome⟩
    case words => rw [getElem_payloadWords, toNat_payloadWord]
    case outcome =>
      rw [exec_fdec_named, ← hbyte, ← hlen, decodeFrame_eq, ← apply_ite, ← apply_ite]
      rfl

/-- Settles O36: the value of the word that the index names, in the sign the spec gives it. -/
theorem fwordReadsADecodedWord : Obligations.FwordReadsADecodedWord := by
  refine ⟨encodes_fword, fun s => ⟨fun v => ?reserved,
    fun a => ⟨fun h => ?beyond, fun h => ?named⟩⟩⟩
  case reserved =>
    exact exec_of_operandReserved s (named_reserved v)
  case beyond =>
    exact exec_of_operandReserved s ((named_decodeSel ..).trans ((wordOfNum_eq_none_iff _).mpr h))
  case named =>
    obtain ⟨k, hofNum, hk⟩ := exists_wordOfNum h
    have hsel : decodeSel BmuWord.ofNum a = .named k := by rw [decodeSel, hofNum]
    simp only [← hk, hsel]
    exact ⟨wordValue s.bmw k, toInt_wordValue s.bmw, toNat_wordValue s.bmw, exec_fword_named k s⟩

end Sys2Proof.Machine
end

section
/-! The CAN unit's operations (R176 to R198): what their words decode to, the control frame as a
number and field by field, how the operations end, then the nine obligations. -/

namespace Sys2Proof.Machine

/-! ### Encoding -/

/-- The words of CMDSET (R176): both demands in `d`, the flags in the low 11 bits of `n`. -/
theorem encodes_cmdset :
    Encodes 0x60#8 fun _ n _ d =>
      .cmdset (d.extractLsb' 0 32) (d.extractLsb' 32 32) (n.extractLsb' 0 11) := by
  intro sel n a d
  simp [decode]

/-- The words of CENC (R179); every other field is ignored (R71). -/
theorem encodes_cenc : Encodes 0x61#8 fun _ _ _ _ => .cenc := by
  intro sel n a d
  simp [decode]

/-- The words of CENCOFF (R184); every other field is ignored (R71). -/
theorem encodes_cencoff : Encodes 0x62#8 fun _ _ _ _ => .cencoff := by
  intro sel n a d
  simp [decode]

/-- The words of CLD (R186); the `sel` field is ignored (R71). -/
theorem encodes_cld : Encodes 0x63#8 fun _ n a d => .cld a n d := by
  intro sel n a d
  simp [decode]

/-- The words of CRD (R188); every other field is ignored (R71). -/
theorem encodes_crd : Encodes 0x64#8 fun _ _ _ _ => .crd := by
  intro sel n a d
  simp [decode]

/-- The words of CDEC (R192); every other field is ignored (R71). -/
theorem encodes_cdec : Encodes 0x65#8 fun _ _ _ _ => .cdec := by
  intro sel n a d
  simp [decode]

/-- The words of TFLD (R196); the `d` field is ignored (R71). -/
theorem encodes_tfld :
    Encodes 0x66#8 fun sel n a _ => .tfld (decodeSel Kind.ofNum sel) a n := by
  intro sel n a d
  simp [decode]

/-- The words of TACK (R198); every other field is ignored (R71). -/
theorem encodes_tack : Encodes 0x67#8 fun _ _ _ _ => .tack := by
  intro sel n a d
  simp [decode]

/-! ### The fields of the command record -/

/-- A one-bit field on numbers. -/
theorem toNat_extractLsb'_one {w : Nat} (x : BitVec w) (i : Nat) :
    (x.extractLsb' i 1).toNat = (x.getLsbD i).toNat := by
  rw [BitVec.extractLsb'_toNat, Nat.shiftRight_eq_div_pow]
  exact (Nat.toNat_testBit ..).symm

/-- The stage bits on numbers: all of CMDF above EN and CLR (R31). -/
theorem toNat_stFlags (s : State) : (stFlags s).toNat = s.cmdf.toNat / 4 := by
  have hlt : s.cmdf.toNat < 2048 := s.cmdf.isLt
  rw [stFlags, BitVec.extractLsb'_toNat, Nat.shiftRight_eq_div_pow]
  omega

/-- The voltage demand, clamped as a signed integer (R180). -/
theorem toNat_voltageField (s : State) :
    (voltageField s).toNat = (max 0 (min s.cmdv.toInt 1048575)).toNat :=
  toNat_clampDemand s.cmdv (by omega) (by omega)

/-- The current demand, clamped as a signed integer (R180). -/
theorem toNat_currentField (s : State) :
    (currentField s).toNat = (max 0 (min s.cmdi.toInt 262143)).toNat :=
  toNat_clampDemand s.cmdi (by omega) (by omega)

/-- A clamped voltage demand fits its field (R178). -/
theorem voltageField_lt (s : State) : (voltageField s).toNat < 2 ^ 20 := by
  rw [toNat_voltageField]
  omega

/-- A clamped current demand fits its field (R178). -/
theorem currentField_lt (s : State) : (currentField s).toNat < 2 ^ 18 := by
  rw [toNat_currentField]
  omega

/-- A clamped demand is never negative, so its signed and unsigned values agree. -/
theorem toInt_clampDemand (x : BitVec 32) {hi : Int} (h0 : 0 ≤ hi) (h : hi < 2 ^ 32) :
    (clampDemand x hi).toInt = max 0 (min x.toInt hi) := by
  have hnat := toNat_clampDemand x h0 h
  rw [BitVec.toInt_eq_toNat_of_lt (by omega)]
  omega

/-! ### The control frame as a number -/

/-- A concatenation on numbers. -/
theorem toNat_append_eq_add {v w : Nat} (x : BitVec v) (y : BitVec w) :
    (x ++ y).toNat = x.toNat * 2 ^ w + y.toNat := by
  rw [BitVec.toNat_append, ← Nat.shiftLeft_add_eq_or_of_lt y.isLt, Nat.shiftLeft_eq]

/-- A control frame is its five fields side by side, bit 31 and the bits from 50 on zero (R178). -/
theorem le64_controlFrame (s : State) (en : BitVec 1) (cur : BitVec 64) :
    (controlFrame s en cur).le64 =
      0#14 ++ cur.extractLsb' 0 18 ++ 0#1 ++ stFlags s ++ clrFlag s ++ en ++
        (voltageField s).extractLsb' 0 20 := by
  refine BitVec.eq_of_getLsbD_eq fun p hp => ?_
  rw [Memory.getLsbD_le64 _ _ hp, bit_controlFrame]
  simp only [BitVec.getLsbD_append, BitVec.getLsbD_extractLsb', BitVec.getLsbD_zero, Nat.sub_sub]
  by_cases hvoltage : p < 20
  · simp [hvoltage]
  by_cases hen : p = 20
  · simp [hen]
  by_cases hclr : p = 21
  · simp [hclr]
  have hflags : ¬p - 20 < 1 ∧ ¬p - 21 < 1 := by omega
  by_cases hst : p < 31
  · have hstages : p - 22 < 9 := by omega
    simp [hvoltage, hen, hclr, hflags, hst, hstages]
  by_cases hgap : p = 31
  · simp [hgap]
  · have hrest : ¬p - 22 < 9 ∧ ¬p - 31 < 1 ∧ 32 ≤ p ∧ (p - 32 < 18 ↔ p < 50) := by omega
    simp [hvoltage, hen, hclr, hst, hflags, hrest]

/-- A control frame as a number, the current fitting its field (R178). -/
theorem toNat_le64_controlFrame (s : State) (en : BitVec 1) {cur : BitVec 64}
    (hcur : cur.toNat < 2 ^ 18) :
    (controlFrame s en cur).le64.toNat =
      (max 0 (min s.cmdv.toInt 1048575)).toNat + en.toNat * 2 ^ 20 +
        (s.cmdf.getLsbD 1).toNat * 2 ^ 21 + (s.cmdf.toNat / 4) * 2 ^ 22 + cur.toNat * 2 ^ 32 := by
  have hv : ((voltageField s).extractLsb' 0 20).toNat = (voltageField s).toNat :=
    (BitVec.extractLsb'_toNat ..).trans (Nat.mod_eq_of_lt (voltageField_lt s))
  have hc : (cur.extractLsb' 0 18).toNat = cur.toNat :=
    (BitVec.extractLsb'_toNat ..).trans (Nat.mod_eq_of_lt hcur)
  rw [le64_controlFrame]
  simp only [toNat_append_eq_add, hv, hc, toNat_voltageField, clrFlag, toNat_extractLsb'_one,
    toNat_stFlags, BitVec.toNat_zero]
  omega

/-- A control frame has no byte beyond its eight. -/
theorem read_controlFrame_of_ge (s : State) (en : BitVec 1) (cur : BitVec 64) {j : Nat}
    (h : 8 ≤ j) : (controlFrame s en cur).read j = 0#8 :=
  Memory.read_of_within (within_controlFrame s en cur) h

/-! ### The control frame field by field -/

/-- `bf_get` gives the value whose bits stand in the field and that fits it (R100). -/
theorem bfGet_eq_of_bits {m : Memory} {start len : Nat} {v : BitVec 64} (hlen : len ≤ 64)
    (hv : v.toNat < 2 ^ len) (hbits : ∀ i, i < len → m.bit (start + i) = v.getLsbD i) :
    bfGet m start len = v := by
  refine BitVec.eq_of_getLsbD_eq fun i _ => ?_
  rw [getLsbD_bfGet _ _ _ _ hlen]
  by_cases hi : i < len
  · simp [hi, hbits i hi]
  · have hpow : v.toNat < 2 ^ i := hv.trans_le (Nat.pow_le_pow_right (by omega) (not_lt.mp hi))
    have hzero : v.getLsbD i = false := Nat.testBit_lt_two_pow hpow
    simp [hi, hzero]

section
variable (s : State) (en : BitVec 1) (cur : BitVec 64)

/-- The voltage demand of a control frame (R182). -/
theorem bfGet_controlFrame_voltage : bfGet (controlFrame s en cur) 0 20 = voltageField s :=
  bfGet_eq_of_bits (by omega) (voltageField_lt s) fun i hi => by
    rw [bit_controlFrame, Nat.zero_add, if_pos hi]

/-- The power enable of a control frame (R182). -/
theorem bfGet_controlFrame_enable : bfGet (controlFrame s en cur) 20 1 = en.setWidth 64 :=
  bfGet_eq_of_bits (by omega) (by simp; omega) fun i hi => by
    obtain rfl : i = 0 := by omega
    simp [bit_controlFrame]

/-- The fault clear of a control frame (R182). -/
theorem bfGet_controlFrame_clear :
    bfGet (controlFrame s en cur) 21 1 = (clrFlag s).setWidth 64 :=
  bfGet_eq_of_bits (by omega) (by simp; omega) fun i hi => by
    obtain rfl : i = 0 := by omega
    simp [bit_controlFrame]

/-- The stage enables of a control frame (R182). -/
theorem bfGet_controlFrame_stages :
    bfGet (controlFrame s en cur) 22 9 = (stFlags s).setWidth 64 :=
  bfGet_eq_of_bits (by omega) (by simp; omega) fun i hi => by
    rw [bit_controlFrame, if_neg (by omega), if_neg (by omega), if_neg (by omega),
      if_pos (by omega), Nat.add_sub_cancel_left]
    simp; omega

/-- The current demand of a control frame, fitting its field (R182). -/
theorem bfGet_controlFrame_current {cur : BitVec 64} (hcur : cur.toNat < 2 ^ 18) :
    bfGet (controlFrame s en cur) 32 18 = cur :=
  bfGet_eq_of_bits (by omega) hcur fun i hi => by
    rw [bit_controlFrame, if_neg (by omega), if_neg (by omega), if_neg (by omega),
      if_neg (by omega), if_pos (by omega), Nat.add_sub_cancel_left]

end

/-! ### How the operations end -/

/-- CMDSET in full (R176). -/
theorem exec_cmdset (v c : BitVec 32) (flags : BitVec 11) (s : State) :
    exec (.cmdset v c flags) s = .next
      (({ s with cmdv := v, cmdi := c, cmdf := flags } : State).answer .ok 0#64) := rfl

/-- The state with a control frame in the frame registers (R179, R184). -/
def withControlFrame (m : Memory) (s : State) : State :=
  { s with cb := m, cid := s.par.ctrlId, cdlc := 8#4 }

/-- CENC in full (R179). -/
theorem exec_cenc (s : State) :
    exec .cenc s = .next
      ((withControlFrame (controlFrame s (enFlag s) (currentField s)) s).answer .ok
        (controlFrame s (enFlag s) (currentField s)).le64) := rfl

/-- CENCOFF in full (R184). -/
theorem exec_cencoff (s : State) :
    exec .cencoff s = .next
      ((withControlFrame (controlFrame s 0#1 0#64) s).answer .ok
        (controlFrame s 0#1 0#64).le64) := rfl

/-- CLD in full: the length is tested before anything is written (R186). -/
theorem exec_cld (id : BitVec 32) (dlc : BitVec 16) (payload : BitVec 64) (s : State) :
    exec (.cld id dlc payload) s = .next
      (if 8 < dlc.toNat then s.raised .operandFault
      else ({ s with cid := id.extractLsb' 0 11, cdlc := dlc.extractLsb' 0 4
                     cb := payloadBytes payload dlc.toNat } : State).answer .ok 0#64) := by
  rw [apply_ite Host.Outcome.next]
  rfl

/-- CRD in full (R188). -/
theorem exec_crd (s : State) : exec .crd s = .next (s.answer .ok s.cb.le64) := rfl

/-- TACK in full (R198). -/
theorem exec_tack (s : State) :
    exec .tack s = .next
      (({ s with tchg := false } : State).answer .ok ((BitVec.ofBool s.tchg).setWidth 64)) := rfl

/-- The bytes of LE64 (R57). -/
theorem Memory.extractLsb'_le64 (m : Memory) {j : Nat} (h : j < 8) :
    m.le64.extractLsb' (8 * j) 8 = m.read j := by
  refine BitVec.eq_of_getLsbD_eq fun i hi => ?_
  have hbyte : (8 * j + i) / 8 = j := by omega
  have hbit : (8 * j + i) % 8 = i := by omega
  rw [BitVec.getLsbD_extractLsb', Memory.getLsbD_le64 _ _ (by omega), Memory.bit, hbyte, hbit]
  simp [hi]

/-! ### CDEC -/

/-- The kind a frame replaces, by the first matching entry alone (R190, R192). -/
theorem frameKind_eq (s : State) :
    frameKind s =
      (s.par.idTab.find? fun e => decide (s.cid &&& e.mask = e.id)).bind fun e =>
        if s.cdlc.toNat < e.minlen then none else some e.kind := by
  rw [frameKind, lookupId_eq_find]
  cases s.par.idTab.find? fun e => decide (s.cid &&& e.mask = e.id) <;> rfl

/-- CDEC of a frame that replaces no record (R192). -/
theorem exec_cdec_of_none {s : State} (h : frameKind s = none) :
    exec .cdec s = .next (s.answer .ignored 0#64) := by
  simp [exec, execCdec, h]

/-- CDEC of a frame that replaces a record (R192). -/
theorem exec_cdec_of_some {s : State} {k : Kind} (h : frameKind s = some k) :
    exec .cdec s = .next ((latch k s).answer .ok (BitVec.ofNat 64 k.num.val)) := by
  simp [exec, execCdec, h]

/-- The record file after a frame of kind `k`, at any other number (R194). -/
theorem getElem_latch_tel_of_ne (s : State) {k : Kind} {j : Fin 13} (h : j ≠ k.num) :
    (latch k s).tel[j] = s.tel[j] := by
  have hnum : (k.num : Nat) ≠ j := fun heq => h (Fin.ext heq.symm)
  simp [Vector.getElem_set_ne _ _ hnum]

/-! ### TFLD -/

/-- TFLD of a field in range: EMPTY for a record never received, else its bits (R196). -/
theorem exec_tfld_inRange {s : State} {a : BitVec 32} {n : BitVec 16} (k : Kind)
    (hn : n.toNat ≤ Config.bfMaxLen) (h : bitsInRange 8 a n = true) :
    exec (.tfld (.named k) a n) s = .next
      (if (record s k).valid then s.answer .ok (bfGet (record s k).raw a.toNat n.toNat)
      else s.answer .empty 0#64) := by
  cases hvalid : (record s k).valid <;> simp [exec, execTfld, hn.not_gt, h, hvalid]

/-- TFLD in full on a kind the spec names: length, range, valid bit, in that order (R196, R232). -/
theorem exec_tfld_named (s : State) (k : Kind) (a : BitVec 32) (n : BitVec 16) :
    exec (.tfld (.named k) a n) s = .next
      (if 64 < n.toNat then s.raised .operandFault
      else if 0 < n.toNat ∧ 64 < a.toNat + n.toNat then s.raised .indexFault
      else if (record s k).valid then s.answer .ok (bfGet (record s k).raw a.toNat n.toNat)
      else s.answer .empty 0#64) := by
  by_cases hlong : 64 < n.toNat
  · rw [if_pos hlong]
    exact exec_of_operandReserved s (.inr hlong)
  rw [if_neg hlong]
  by_cases hout : 0 < n.toNat ∧ 64 < a.toNat + n.toNat
  · rw [if_pos hout]
    exact exec_tfld_indexFault k (not_lt.mp hlong) ((bitsInRange_eq_false_iff 8 a n).mpr hout)
  · rw [if_neg hout]
    exact exec_tfld_inRange k (not_lt.mp hlong) (bitsInRange_of_not_beyond (size := 8) hout)

/-! ### The obligations -/

/-- Settles O37: one unfolding of the operation. -/
theorem cmdsetReplacesTheRecord : Obligations.CmdsetReplacesTheRecord :=
  ⟨encodes_cmdset, fun s v c flags => exec_cmdset v c flags s⟩

/-- Settles O38: the frame is the control frame of the enable bit and the clamped current. -/
theorem cencBuildsTheControlFrame : Obligations.CencBuildsTheControlFrame := by
  refine ⟨encodes_cenc, fun s => ⟨controlFrame s (enFlag s) (currentField s), ?bits,
    fun j => read_controlFrame_of_ge s _ _, exec_cenc s⟩⟩
  rw [toNat_le64_controlFrame s _ (currentField_lt s), enFlag, toNat_extractLsb'_one,
    toNat_currentField]

/-- Settles O39: the frame is the control frame of enable 0 and current 0. -/
theorem cencoffForcesPowerOff : Obligations.CencoffForcesPowerOff := by
  refine ⟨encodes_cencoff, fun s => ⟨controlFrame s 0#1 0#64, ?bits,
    fun j => read_controlFrame_of_ge s _ _, exec_cencoff s⟩⟩
  simpa using toNat_le64_controlFrame s 0#1 (cur := 0#64) (by decide)

/-- Settles O40, one field of the frame at a time. -/
theorem controlFrameReadsBack : Obligations.ControlFrameReadsBack := by
  refine fun s => ⟨_, exec_cenc s, ?voltage, bfGet_controlFrame_enable ..,
    bfGet_controlFrame_clear .., bfGet_controlFrame_stages .., ?current⟩
  case voltage =>
    exact (congrArg BitVec.toInt (bfGet_controlFrame_voltage ..)).trans
      (toInt_clampDemand s.cmdv (by omega) (by omega))
  case current =>
    exact (congrArg BitVec.toInt (bfGet_controlFrame_current s _ (currentField_lt s))).trans
      (toInt_clampDemand s.cmdi (by omega) (by omega))

/-- Settles O41: the payload's bytes, cut off at the length. -/
theorem cldLoadsAFrame : Obligations.CldLoadsAFrame := by
  refine ⟨encodes_cld, fun s id dlc payload => ⟨payloadBytes payload dlc.toNat,
    id.extractLsb' 0 11, dlc.extractLsb' 0 4, BitVec.extractLsb'_toNat .., fun hdlc => ?length,
    read_payloadBytes payload dlc.toNat, exec_cld id dlc payload s⟩⟩
  exact (BitVec.extractLsb'_toNat ..).trans (Nat.mod_eq_of_lt (by simp; omega))

/-- Settles O42: the result is LE64 of CB, byte by byte. -/
theorem crdReadsThePayload : Obligations.CrdReadsThePayload :=
  ⟨encodes_crd, fun s => ⟨s.cb.le64, exec_crd s, fun _ => s.cb.extractLsb'_le64⟩⟩

/-- Settles O43, by whether an entry matches and the frame is long enough for it. -/
theorem cdecReplacesOneRecord : Obligations.CdecReplacesOneRecord := by
  refine ⟨encodes_cdec, fun s => ?_⟩
  have hkind := frameKind_eq s
  cases hfind : s.par.idTab.find? fun e => decide (s.cid &&& e.mask = e.id) with
  | none =>
    rw [hfind] at hkind
    exact exec_cdec_of_none hkind
  | some e =>
    rw [hfind, Option.bind_some] at hkind
    dsimp only
    split_ifs at hkind ⊢ with hshort
    · exact exec_cdec_of_none hkind
    · exact ⟨(latch e.kind s).tel, record_latch_self s e.kind,
        fun j => getElem_latch_tel_of_ne s, exec_cdec_of_some hkind⟩

/-- Settles O44: the field is `bf_get` of the latched payload. -/
theorem tfldReadsARecord : Obligations.TfldReadsARecord := by
  refine ⟨encodes_tfld, fun s a n => ⟨fun v => ?reserved, fun k => ?named⟩⟩
  case reserved =>
    exact exec_of_operandReserved s (.inl (named_reserved v))
  case named =>
    refine ⟨bfGet (record s k).raw a.toNat n.toNat, fun hn i => ?_, exec_tfld_named s k a n⟩
    rw [bitOf_eq_bit, getLsbD_bfGet _ _ _ _ hn]
    rfl

/-- Settles O45: the result is the old flag as one bit. -/
theorem tackReturnsAndClears : Obligations.TackReturnsAndClears := by
  refine ⟨encodes_tack, fun s => ⟨_, ?result, exec_tack s⟩⟩
  cases s.tchg <;> rfl

end Sys2Proof.Machine
end

section
/-! The byte accesses and the system operations (R211 to R219): what their words decode to, how they
end, the layout of each register, then the six obligations. -/

namespace Sys2Proof.Machine

/-! ### Encoding -/

/-- The words of NOP (R215); every other field is ignored (R71). -/
theorem encodes_nop : Encodes 0x00#8 fun _ _ _ _ => .nop := by
  intro sel n a d
  simp [decode]

/-- The words of SRST (R216); every other field is ignored (R71). -/
theorem encodes_srst : Encodes 0x01#8 fun _ _ _ _ => .srst := by
  intro sel n a d
  simp [decode]

/-- The words of RDR (R218): the register number is the whole `a` field. -/
theorem encodes_rdr : Encodes 0x02#8 fun _ _ a _ => .rdr (decodeSel Reg.ofNum a) := by
  intro sel n a d
  simp [decode]

/-- The words of ECLR (R219): of `d` only the low 16 bits count. -/
theorem encodes_eclr : Encodes 0x03#8 fun _ _ _ d => .eclr (d.extractLsb' 0 16) := by
  intro sel n a d
  simp [decode]

/-- The words of LDB (R211); the `n` and `d` fields are ignored (R71). -/
theorem encodes_ldb : Encodes 0x10#8 fun sel _ a _ => .ldb (decodeSel Buf.ofNum sel) a := by
  intro sel n a d
  simp [decode, bufSelOf]

/-- The words of STB (R212): of `d` only the low byte counts. -/
theorem encodes_stb :
    Encodes 0x11#8 fun sel _ a d => .stb (decodeSel Buf.ofNum sel) a (d.extractLsb' 0 8) := by
  intro sel n a d
  simp [decode, bufSelOf, dByte]

/-! ### How the operations end -/

/-- NOP in full (R215). -/
theorem exec_nop (s : State) : exec .nop s = .next (s.answer .ok 0#64) := rfl

/-- ECLR in full: the old ESR is returned, the masked bits are cleared (R219). -/
theorem exec_eclr (mask : BitVec 16) (s : State) :
    exec (.eclr mask) s = .next
      (({ s with esr := s.esr &&& ~~~mask } : State).answer .ok (s.esr.setWidth 64)) := rfl

/-- A register's own number names it (R41). -/
theorem decodeSel_regNum (x : Reg) :
    decodeSel Reg.ofNum (BitVec.ofNat 32 x.num) = .named x := by
  cases x <;> rfl

/-- RDR of a register by its number answers the register's layout and changes nothing (R218). -/
theorem exec_rdr_regNum (x : Reg) (s : State) :
    exec (.rdr (decodeSel Reg.ofNum (BitVec.ofNat 32 x.num))) s =
      .next (s.answer .ok (regValue s x)) := by
  rw [decodeSel_regNum]
  rfl

/-- LDB in full on a buffer the spec names (R211). -/
theorem exec_ldb_named (s : State) (b : Buf) (a : BitVec 32) :
    exec (.ldb (.named b) a) s = .next
      (if a.toNat < bufSize s b then s.answer .ok (((bufMem s b).read a.toNat).setWidth 64)
      else s.raised .indexFault) := by
  split_ifs with hin
  · simp [exec, execLdb, hin.not_ge]
  · exact exec_ldb_indexFault (not_lt.mp hin)

/-- STB in full on a buffer it may write (R212). -/
theorem exec_stb_named (s : State) {b : Buf} (a : BitVec 32) (v : Byte) (hb : b ≠ .rxb) :
    exec (.stb (.named b) a v) s = .next
      (if a.toNat < bufSize s b then
        (setBuf s b ((bufMem s b).write a.toNat v)).answer .ok 0#64
      else s.raised .indexFault) := by
  split_ifs with hin
  · simp [exec, execStb, writeTarget_named_of_ne_rxb hb, hin.not_ge]
  · exact exec_stb_indexFault v hb (not_lt.mp hin)

/-! ### The layouts of the registers (R41) -/

/-- EVT on numbers: READY in bit 0, TCHG in bit 1, BMV in bit 2. -/
theorem toNat_regValue_evt (s : State) :
    (regValue s .evt).toNat =
      (if s.fst = .ready then 1 else 0) + (if s.tchg then 2 else 0) + (if s.bmv then 4 else 0) := by
  simp only [regValue, toNat_append_eq_add, BitVec.toNat_ofBool, frameReady, telChanged]
  split_ifs <;> simp [*]

/-- The expected length of a frame fits the nine bits FSTAT gives it. -/
theorem expectedLen_lt (m : Memory) : expectedLen m < 2 ^ 9 := by
  have hlen : (m.read 3).toNat < 256 := (m.read 3).isLt
  rw [expectedLen]
  omega

/-- FSTAT on numbers: FST from bit 0, RXLEN from bit 16, the expected length from bit 32, the last
once the length byte is stored. -/
theorem toNat_regValue_fstat (s : State) :
    (regValue s .fstat).toNat =
      s.fst.code.toNat + s.rxlen.toNat * 2 ^ 16 +
        (if 4 ≤ s.rxlen.toNat then expectedLen s.rxb else 0) * 2 ^ 32 := by
  have hexpected : (if 4 ≤ s.rxlen.toNat then BitVec.ofNat 9 (expectedLen s.rxb) else 0#9).toNat =
      if 4 ≤ s.rxlen.toNat then expectedLen s.rxb else 0 := by
    split_ifs
    · exact (BitVec.toNat_ofNat ..).trans (Nat.mod_eq_of_lt (expectedLen_lt s.rxb))
    · rfl
  simp only [regValue, toNat_append_eq_add, hexpected, BitVec.toNat_ofNat]
  omega

/-- CANHDR on numbers: CID from bit 0, CDLC from bit 16. -/
theorem toNat_regValue_canhdr (s : State) :
    (regValue s .canhdr).toNat = s.cid.toNat + s.cdlc.toNat * 2 ^ 16 := by
  simp only [regValue, toNat_append_eq_add, BitVec.toNat_ofNat]
  omega

/-- TVALID bit by bit below 13: the valid bit of the record of that number. -/
theorem getLsbD_regValue_tvalid (s : State) (k : Fin 13) :
    (regValue s .tvalid).getLsbD k = (s.tel[k]).valid := by
  simp [regValue, getLsbD_validBits]

/-- TVALID from bit 13 on: no record, no bit. -/
theorem getLsbD_regValue_tvalid_of_ge (s : State) {k : Nat} (h : 13 ≤ k) :
    (regValue s .tvalid).getLsbD k = false := by
  simp [regValue, getLsbD_validBits, h.not_gt]

/-! ### The obligations -/

/-- Settles O5, one register at a time. -/
theorem rdrReadsEveryRegister : Obligations.RdrReadsEveryRegister := by
  refine ⟨encodes_rdr, fun a => decodeSel_reg_of_ge,
    fun s v => exec_of_operandReserved s (named_reserved v), fun s => ?registers⟩
  exact ⟨
    ⟨_, exec_rdr_regNum .id s, rfl⟩,
    ⟨_, exec_rdr_regNum .esr s, BitVec.toNat_setWidth_of_le (by decide)⟩,
    ⟨_, exec_rdr_regNum .evt s, toNat_regValue_evt s⟩,
    ⟨_, exec_rdr_regNum .crc s, BitVec.toNat_setWidth_of_le (by decide)⟩,
    ⟨_, exec_rdr_regNum .sum s, BitVec.toNat_setWidth_of_le (by decide)⟩,
    ⟨_, exec_rdr_regNum .fstat s, toNat_regValue_fstat s⟩,
    ⟨_, exec_rdr_regNum .cmdf s, BitVec.toNat_setWidth_of_le (by decide)⟩,
    ⟨_, exec_rdr_regNum .cmdv s, BitVec.toInt_signExtend_of_le (by decide)⟩,
    ⟨_, exec_rdr_regNum .cmdi s, BitVec.toInt_signExtend_of_le (by decide)⟩,
    ⟨_, exec_rdr_regNum .canhdr s, toNat_regValue_canhdr s⟩,
    ⟨_, exec_rdr_regNum .tvalid s, getLsbD_regValue_tvalid s,
      fun _ => getLsbD_regValue_tvalid_of_ge s⟩⟩

/-- Settles O3: the state after is `softReset` with a response. -/
theorem srstResetsAndKeepsBytes : Obligations.SrstResetsAndKeepsBytes := by
  refine ⟨encodes_srst, fun s => ⟨_, exec_srst s,
    (atResetValues_answer ..).mpr (atResetValues_softReset s), rfl, rfl, rfl, fun k => ?payload,
    rfl, rfl, rfl⟩⟩
  case payload => simp

/-- Settles O4: one unfolding of the operation. -/
theorem nopDoesNothing : Obligations.NopDoesNothing :=
  ⟨encodes_nop, encodes_nop 0#8 0#16 0#32 0#64, exec_nop⟩

/-- Settles O6: a cleared bit is a bit of the mask. -/
theorem eclrClearsMaskedBits : Obligations.EclrClearsMaskedBits := by
  refine ⟨encodes_eclr, fun s mask => ⟨_, _, exec_eclr mask s,
    BitVec.toNat_setWidth_of_le (by decide), fun k => ?bit⟩⟩
  by_cases hk : k < 16
  · simp [hk]
  · simp [BitVec.getLsbD_of_ge _ _ (not_lt.mp hk)]

/-- Settles O7, one buffer at a time. -/
theorem ldbReadsOneByte : Obligations.LdbReadsOneByte :=
  ⟨encodes_ldb, fun s a => ⟨fun v => exec_of_operandReserved s (named_reserved v),
    exec_ldb_named s .wb a, exec_ldb_named s .rxb a, exec_ldb_named s .cb a⟩⟩

/-- Settles O8: the new content is the old one with one write. -/
theorem stbWritesOneByte : Obligations.StbWritesOneByte := by
  refine ⟨encodes_stb, fun s a v => ⟨fun x => ?reserved, ?rxb, ?wb, ?cb⟩⟩
  case reserved =>
    exact exec_of_operandReserved s (writeTarget_reserved x)
  case rxb =>
    exact exec_of_operandReserved s writeTarget_rxb
  case wb =>
    exact ⟨_, exec_stb_named s a v (b := .wb) (by decide), fun j => Memory.read_write _ _ j v⟩
  case cb =>
    exact ⟨_, exec_stb_named s a v (b := .cb) (by decide), fun j => Memory.read_write _ _ j v⟩

end Sys2Proof.Machine
end

section
/-! How an operation ends (R225, R230): the three classes of R225 as one predicate, that every
operation and every command word ends in one of them, then the obligations. -/

namespace Sys2Proof.Machine

/-! ### The three classes -/

/-- The ways an operation can end from `s` (R225): OK in whatever state it leaves, a non-fault
outcome that changes nothing, or a fault. -/
inductive Ends (s : State) : Res → Prop where
  | ok (u : State) (r : BitVec 64) : Ends s (.next (u.answer .ok r))
  | outcome (st : Status) (r : BitVec 64) (h : st ∈ [Status.empty, .busy, .ignored]) :
      Ends s (.next (s.answer st r))
  | fault (f : EngFault) : Ends s (.next (s.raised f))

/-- `Ends.ok` for `simp`. -/
@[simp] theorem ends_answer_ok (s u : State) (r : BitVec 64) :
    Ends s (.next (u.answer .ok r)) := .ok u r

/-- `Ends.fault` for `simp`. -/
@[simp] theorem ends_raised (s : State) (f : EngFault) : Ends s (.next (s.raised f)) := .fault f

/-- EMPTY is a non-fault outcome when nothing else changed (R226). -/
@[simp] theorem ends_answer_empty (s : State) (r : BitVec 64) :
    Ends s (.next (s.answer .empty r)) := .outcome .empty r (by decide)

/-- An operation that leaves a CRC ends with OK. -/
@[simp] theorem ends_respondCrc (s u : State) (c : BitVec 16) : Ends s (respondCrc c u) := .ok ..

/-- An operation that leaves a checksum ends with OK. -/
@[simp] theorem ends_respondSum (s u : State) (c : BitVec 8) : Ends s (respondSum c u) := .ok ..

/-- A test that picks between two endings. -/
@[simp] theorem ends_ite (s : State) (c : Prop) [Decidable c] (x y : Res) :
    Ends s (if c then x else y) ↔ (c → Ends s x) ∧ (¬c → Ends s y) := by
  split <;> simp [*]

/-- Decoding a frame raises the first failing check or unpacks it with OK (R160). -/
@[simp] theorem ends_decodeFrame (f : Nat → Byte) (len : Nat) (s : State) :
    Ends s (decodeFrame f len s) := by
  rcases decodeFrame_cases f len s with ⟨e, -, hdec⟩ | ⟨-, hdec⟩
  · simp [hdec]
  · simp [hdec]

/-! ### Every operation is in one of them -/

/-- Every operation ends in one of the three classes (R225). -/
theorem ends_exec (i : Instr) (s : State) : Ends s (exec i s) := by
  cases i with
  | rdr reg => cases h : named reg <;> simp [exec, execRdr, h]
  | ldb sel a => cases h : named sel <;> simp [exec, execLdb, h]
  | stb sel a v => cases h : writeTarget sel <;> simp [exec, execStb, h]
  | crcbuf sel a n => cases h : named sel <;> simp [exec, execCrcbuf, h]
  | crcapp sel a n => cases h : writeTarget sel <;> simp [exec, execCrcapp, h]
  | crcchk sel a n => cases h : named sel <;> simp [exec, execCrcchk, h]
  | sumbuf sel a n => cases h : named sel <;> simp [exec, execSumbuf, h]
  | bfget sel a n => cases h : named sel <;> simp [exec, execBfget, h]
  | bfset sel a n d => cases h : writeTarget sel <;> simp [exec, execBfset, h]
  | fword k => cases h : named k <;> simp [exec, execFword, h]
  | tfld kind a n => cases h : named kind <;> simp [exec, execTfld, h]
  | cld id dlc payload => simp [exec, execCld]
  | fdec sel a n =>
    cases sel with
    | named b => simp [exec_fdec_named]
    | reserved v => exact .fault .operandFault
  | fpush b =>
    by_cases hready : s.fst = .ready
    · exact exec_fpush_of_ready b hready ▸ .outcome .busy _ (by decide)
    · exact exec_fpush_ok hready rfl rfl ▸ .ok ..
  | cdec =>
    cases hk : frameKind s with
    | none => exact exec_cdec_of_none hk ▸ .outcome .ignored _ (by decide)
    | some k => exact exec_cdec_of_some hk ▸ .ok ..
  | nop | srst | eclr | crcinit | crcupd | suminit | sumupd | fflush | freq | cmdset | cenc
  | cencoff | crd | tack => exact .ok ..

/-- Every command word ends in one of the three classes, an illegal one in a fault (R79, R225). -/
theorem ends_step {s : State} {w : CmdWord} {rest : List Input}
    (hport : s.port = .command w :: rest) : Ends { s with port := rest } (step s) := by
  cases hd : decode w with
  | ok i => exact step_of_decode_ok hport hd ▸ ends_exec i _
  | error e => exact step_of_decode_error hport hd ▸ .fault _

/-! ### What the class of an ending says -/

/-- The codes of the non-fault outcomes lie between OK and the faults (R226). -/
theorem code_of_outcome {st : Status} (h : st ∈ [Status.empty, .busy, .ignored]) :
    0x01 ≤ st.code.toNat ∧ st.code.toNat ≤ 0x0F := by
  revert st
  decide

/-- The codes of the faults start at 0x10 (R226). -/
theorem le_code_raised (f : EngFault) : 0x10 ≤ (Status.raised f).code.toNat := by
  cases f <;> decide

/-- An ending is a next state: the engine never stops (R225). -/
theorem Ends.exists_next {s : State} {x : Res} (h : Ends s x) : ∃ t, x = .next t := by
  cases h <;> exact ⟨_, rfl⟩

/-- Only the third class answers a fault status, and it is the fault's own state (R230). -/
theorem Ends.eq_raised_of_rsp {s t : State} {f : EngFault} {r : BitVec 64}
    (h : Ends s (.next t)) (hrsp : t.rsp = some ⟨.raised f, r⟩) : t = s.raised f ∧ r = 0#64 := by
  cases h with
  | ok u r => simp at hrsp
  | outcome st r hst =>
    obtain ⟨rfl, -⟩ : st = .raised f ∧ _ := by simpa using hrsp
    simp at hst
  | fault g =>
    obtain ⟨rfl, rfl⟩ : g = f ∧ 0#64 = r := by simpa using hrsp
    exact ⟨rfl, rfl⟩

/-- Every step answers a next state, whatever the outside presents (R225, R244, R255). -/
theorem exists_step_eq_next (s : State) : ∃ t, step s = .next t := by
  cases hport : s.port with
  | nil => exact ⟨s, by simp [step, nextInput, hport]⟩
  | cons x rest =>
    cases x with
    | command w => exact (ends_step hport).exists_next
    | powerOn wb => exact ⟨powerOn wb { s with port := rest }, by simp [step, nextInput, hport]⟩

/-! ### The obligations -/

/-- Settles O47: the class of the ending gives the class of the status code. -/
theorem everyOperationAnswers : Obligations.EveryOperationAnswers := by
  refine ⟨fun s w rest hport => ?_, fun i s => (ends_exec i s).exists_next, exists_step_eq_next⟩
  have hends := ends_step hport
  generalize step s = x at hends
  cases hends with
  | ok u r => exact ⟨_, _, rfl, rfl, .inl rfl⟩
  | outcome st r hst =>
    obtain ⟨hlow, hhigh⟩ := code_of_outcome hst
    exact ⟨_, _, rfl, rfl, .inr (.inl ⟨hlow, hhigh, rfl⟩)⟩
  | fault f => exact ⟨_, _, rfl, rfl, .inr (.inr ⟨le_code_raised f, f, rfl⟩)⟩

/-- Settles O48: a fault status means the third class, whose state is `raised`'s. -/
theorem faultsArePrecise : Obligations.FaultsArePrecise := by
  refine ⟨fun s t w rest f r hport hstep hrsp => ?_, rfl⟩
  obtain ⟨rfl, rfl⟩ := (hstep ▸ ends_step hport).eq_raised_of_rsp hrsp
  exact ⟨rfl, rfl⟩

end Sys2Proof.Machine
end

section
/-! Decode after encode (R70 to R80): a selecting field reads back, the operands that sit inside a
field read back, then the obligation. -/

namespace Sys2Proof.Machine

/-! ### Selecting fields -/

/-- A selecting field reads back: a named thing by its number, which the field must hold, and a
reserved value because no number from `first` on is named (R80). -/
theorem decodeSel_encodeSel {α : Type} {w first : Nat} {num : α → Nat} {ofNum : Nat → Option α}
    (hname : ∀ x, num x < 2 ^ w ∧ ofNum (num x) = some x)
    (hreserved : ∀ k, first ≤ k → ofNum k = none) {sel : Sel α w} (hwf : Sel.wf first sel = true) :
    decodeSel ofNum (encodeSel num sel) = sel := by
  cases sel with
  | named x =>
    obtain ⟨hfits, hx⟩ := hname x
    rw [encodeSel, decodeSel, BitVec.toNat_ofNat, Nat.mod_eq_of_lt hfits, hx]
  | reserved v =>
    have hv : first ≤ v.toNat := by simpa [Sel.wf] using hwf
    rw [encodeSel, decodeSel, hreserved _ hv]

/-- A buffer number reads back (R50). -/
theorem decodeSel_bufField {sel : BufSel} (hwf : BufSel.wf sel = true) :
    decodeSel Buf.ofNum (bufField sel) = sel :=
  decodeSel_encodeSel (by rintro ⟨⟩ <;> decide) (fun k => (bufOfNum_eq_none_iff k).mpr) hwf

/-- A record kind number reads back (R38). -/
theorem decodeSel_encodeSel_kind {kind : KindSel} (hwf : KindSel.wf kind = true) :
    decodeSel Kind.ofNum (encodeSel (fun x => (Kind.num x).val) kind) = kind :=
  decodeSel_encodeSel (by rintro ⟨⟩ <;> decide) (fun k => (kindOfNum_eq_none_iff k).mpr) hwf

/-- A register number reads back (R41). -/
theorem decodeSel_encodeSel_reg {reg : RegSel} (hwf : RegSel.wf reg = true) :
    decodeSel Reg.ofNum (encodeSel Reg.num reg) = reg :=
  decodeSel_encodeSel (by rintro ⟨⟩ <;> decide) (fun k => (regOfNum_eq_none_iff k).mpr) hwf

/-- A word index reads back (R166). -/
theorem decodeSel_encodeSel_word {k : WordSel} (hwf : WordSel.wf k = true) :
    decodeSel BmuWord.ofNum (encodeSel (fun x => (BmuWord.num x).val) k) = k :=
  decodeSel_encodeSel (by rintro ⟨⟩ <;> decide) (fun k => (wordOfNum_eq_none_iff k).mpr) hwf

/-! ### Operands inside a field -/

/-- The low bits of a widened operand are the operand. -/
theorem extractLsb'_zero_setWidth {v w : Nat} (x : BitVec v) (h : v ≤ w) :
    (x.setWidth w).extractLsb' 0 v = x := by
  refine BitVec.eq_of_getLsbD_eq fun i hi => ?_
  simp [hi, hi.trans_le h]

/-- The high part of two operands side by side in a wider field. -/
theorem extractLsb'_setWidth_append_high {v w n : Nat} (x : BitVec v) (y : BitVec w)
    (h : v + w ≤ n) : ((x ++ y).setWidth n).extractLsb' w v = x := by
  refine BitVec.eq_of_getLsbD_eq fun i hi => ?_
  simp [BitVec.getLsbD_append, hi]
  omega

/-- The low part of two operands side by side in a wider field. -/
theorem extractLsb'_setWidth_append_low {v w n : Nat} (x : BitVec v) (y : BitVec w)
    (h : v + w ≤ n) : ((x ++ y).setWidth n).extractLsb' 0 w = y := by
  refine BitVec.eq_of_getLsbD_eq fun i hi => ?_
  simp [BitVec.getLsbD_append, hi]
  omega

/-- The high part of two operands that fill their field. -/
theorem extractLsb'_append_high {v w : Nat} (x : BitVec v) (y : BitVec w) :
    (x ++ y).extractLsb' w v = x := by
  simpa using extractLsb'_setWidth_append_high x y le_rfl

/-- The low part of two operands that fill their field. -/
theorem extractLsb'_append_low {v w : Nat} (x : BitVec v) (y : BitVec w) :
    (x ++ y).extractLsb' 0 w = y := by
  simpa using extractLsb'_setWidth_append_low x y le_rfl

/-! ### The obligation -/

/-- A word put together from its fields decodes to what its opcode builds from them (R71). -/
theorem decode_mkWord {op sel : BitVec 8} {n : BitVec 16} {a : BitVec 32} {d : BitVec 64}
    {f : BitVec 8 → BitVec 16 → BitVec 32 → BitVec 64 → Instr} {i : Instr} (h : Encodes op f)
    (hi : f sel n a d = i) : decode (mkWord op sel n a d) = .ok i :=
  hi ▸ h sel n a d

/-- Decode undoes encode on every well-formed operation (R70, R73, R78). -/
theorem decode_encode {i : Instr} (hwf : i.wf = true) : decode (encode i) = .ok i := by
  cases i with
  | nop => exact encodes_nop ..
  | srst => exact encodes_srst ..
  | crcinit => exact encodes_crcinit ..
  | suminit => exact encodes_suminit ..
  | fflush => exact encodes_fflush ..
  | cenc => exact encodes_cenc ..
  | cencoff => exact encodes_cencoff ..
  | crd => exact encodes_crd ..
  | cdec => exact encodes_cdec ..
  | tack => exact encodes_tack ..
  | cld id dlc payload => exact encodes_cld ..
  | rdr reg => exact decode_mkWord encodes_rdr (by rw [decodeSel_encodeSel_reg hwf])
  | ldb sel a => exact decode_mkWord encodes_ldb (by rw [decodeSel_bufField hwf])
  | crcbuf sel a n => exact decode_mkWord encodes_crcbuf (by rw [decodeSel_bufField hwf])
  | crcapp sel a n => exact decode_mkWord encodes_crcapp (by rw [decodeSel_bufField hwf])
  | crcchk sel a n => exact decode_mkWord encodes_crcchk (by rw [decodeSel_bufField hwf])
  | sumbuf sel a n => exact decode_mkWord encodes_sumbuf (by rw [decodeSel_bufField hwf])
  | bfget sel a n => exact decode_mkWord encodes_bfget (by rw [decodeSel_bufField hwf])
  | bfset sel a n d => exact decode_mkWord encodes_bfset (by rw [decodeSel_bufField hwf])
  | fdec sel a n => exact decode_mkWord encodes_fdec (by rw [decodeSel_bufField hwf])
  | fword k => exact decode_mkWord encodes_fword (by rw [decodeSel_encodeSel_word hwf])
  | tfld kind a n => exact decode_mkWord encodes_tfld (by rw [decodeSel_encodeSel_kind hwf])
  | stb sel a b =>
    refine decode_mkWord encodes_stb ?_
    rw [decodeSel_bufField hwf, byteField, extractLsb'_zero_setWidth b (by decide)]
  | eclr mask =>
    refine decode_mkWord encodes_eclr ?_
    rw [extractLsb'_zero_setWidth mask (by decide)]
  | crcupd b =>
    refine decode_mkWord encodes_crcupd ?_
    rw [byteField, extractLsb'_zero_setWidth b (by decide)]
  | sumupd b =>
    refine decode_mkWord encodes_sumupd ?_
    rw [byteField, extractLsb'_zero_setWidth b (by decide)]
  | fpush b =>
    refine decode_mkWord encodes_fpush ?_
    rw [byteField, extractLsb'_zero_setWidth b (by decide)]
  | freq addr kind1 kind2 =>
    refine decode_mkWord encodes_freq ?_
    rw [extractLsb'_zero_setWidth addr (by decide),
      extractLsb'_setWidth_append_low kind2 kind1 (by decide),
      extractLsb'_setWidth_append_high kind2 kind1 (by decide)]
  | cmdset v c flags =>
    refine decode_mkWord encodes_cmdset ?_
    rw [extractLsb'_append_low, extractLsb'_append_high,
      extractLsb'_zero_setWidth flags (by decide)]

/-- The host's entry reads the whole word (R70). -/
theorem decodeTableWord_toNat {w : CmdWord} {i : Instr} (h : decode w = .ok i) :
    decodeTableWord 128 w.toNat = some i := by
  rw [decodeTableWord, Nat.mod_eq_of_lt w.isLt, BitVec.ofNat_toNat, BitVec.setWidth_eq, h]

/-- Settles O56, one operation at a time. -/
theorem decodeOfEncode : Obligations.DecodeOfEncode := fun _ hwf =>
  ⟨decode_encode hwf, decodeTableWord_toNat (decode_encode hwf)⟩

end Sys2Proof.Machine
end

section
/-! All that an operation can do to the state: one constructor per change, with the tests the
operation made before it (R230, R232). Who writes what, that no set ESR bit is lost and that the
invariants stay are then one case each. -/

namespace Sys2Proof.Machine

/-! ### The changes -/

/-- All that the operation `i` can leave of the state `s`, the response aside, when it does not
fault. -/
inductive Effect (s : State) : Instr → State → Prop where
  | unchanged (i : Instr) : Effect s i s
  | softReset : Effect s .srst (softReset s)
  | esr (mask : BitVec 16) : Effect s (.eclr mask) { s with esr := s.esr &&& ~~~mask }
  | byte {b : Buf} {a : BitVec 32} (v : Byte) (hb : b ≠ .rxb) (ha : a.toNat < bufSize s b) :
      Effect s (.stb (.named b) a v) (setBuf s b ((bufMem s b).write a.toNat v))
  | crc {i : Instr} (c : BitVec 16) (hi : opcode i ∈ [0x20#8, 0x21#8, 0x22#8, 0x24#8]) :
      Effect s i { s with crc := c }
  | trailer {b : Buf} {a : BitVec 32} {n : BitVec 16} (c : BitVec 16) (hb : b ≠ .rxb)
      (hn : a.toNat + n.toNat + 2 ≤ bufSize s b) :
      Effect s (.crcapp (.named b) a n)
        { setBuf s b (withTrailer (bufMem s b) (a.toNat + n.toNat) c) with crc := c }
  | sum {i : Instr} (c : BitVec 8) (hi : opcode i ∈ [0x30#8, 0x31#8, 0x32#8]) :
      Effect s i { s with sum := c }
  | field {b : Buf} {a : BitVec 32} {n : BitVec 16} (d : BitVec 64) (hb : b ≠ .rxb)
      (hn : bitsInRange (bufSize s b) a n = true) :
      Effect s (.bfset (.named b) a n d) (setBuf s b (bfSet (bufMem s b) a.toNat n.toNat d))
  | flush : Effect s .fflush { s with rxlen := 0#9, fst := .hunt0 }
  | request (addr kind1 kind2 : Byte) (c : BitVec 8) :
      Effect s (.freq addr kind1 kind2)
        { s with wb := withRequest s.wb addr kind1 kind2, sum := c }
  | scan (b : Byte) : Effect s (.fpush b) (scanByte b s)
  | words {sel : BufSel} {a : BitVec 32} {n : BitVec 16} (w : Vector (BitVec 16) 10) :
      Effect s (.fdec sel a n) { s with bmw := w, bmv := true }
  | command (v c : BitVec 32) (flags : BitVec 11) :
      Effect s (.cmdset v c flags) { s with cmdv := v, cmdi := c, cmdf := flags }
  | control {i : Instr} (en : BitVec 1) (cur : BitVec 64) (hi : opcode i ∈ [0x61#8, 0x62#8]) :
      Effect s i (withControlFrame (controlFrame s en cur) s)
  | frame {dlc : BitVec 16} (id : BitVec 32) (payload : BitVec 64) (hdlc : dlc.toNat ≤ 8) :
      Effect s (.cld id dlc payload)
        { s with cid := id.extractLsb' 0 11, cdlc := dlc.extractLsb' 0 4
                 cb := payloadBytes payload dlc.toNat }
  | record (k : Kind) : Effect s .cdec (latch k s)
  | acknowledged : Effect s .tack { s with tchg := false }

/-- The ways the operation `i` can end: its fault's precise state, or one of its changes with a
response. -/
inductive EndsWith (s : State) (i : Instr) : Res → Prop where
  | fault (f : EngFault) : EndsWith s i (.next (s.raised f))
  | effect {u : State} (st : Status) (r : BitVec 64) (h : Effect s i u) :
      EndsWith s i (.next (u.answer st r))

/-! ### Every operation makes one of its changes -/

section
variable (s : State) (i : Instr)

/-- `EndsWith.fault` for `simp`. -/
@[simp] theorem endsWith_raised (f : EngFault) : EndsWith s i (.next (s.raised f)) := .fault f

/-- A response alone changes nothing else. -/
@[simp] theorem endsWith_answer (st : Status) (r : BitVec 64) :
    EndsWith s i (.next (s.answer st r)) := .effect st r (.unchanged i)

/-- A test that picks between two endings. -/
@[simp] theorem endsWith_ite (c : Prop) [Decidable c] (x y : Res) :
    EndsWith s i (if c then x else y) ↔ (c → EndsWith s i x) ∧ (¬c → EndsWith s i y) := by
  split <;> simp [*]

variable {s i}

/-- An operation that may leave a CRC. -/
theorem endsWith_respondCrc (c : BitVec 16)
    (hi : opcode i ∈ [0x20#8, 0x21#8, 0x22#8, 0x24#8]) : EndsWith s i (respondCrc c s) :=
  .effect _ _ (.crc c hi)

/-- An operation that may leave a checksum. -/
theorem endsWith_respondSum (c : BitVec 8) (hi : opcode i ∈ [0x30#8, 0x31#8, 0x32#8]) :
    EndsWith s i (respondSum c s) :=
  .effect _ _ (.sum c hi)

/-- What FDEC does with a frame (R160). -/
theorem endsWith_decodeFrame {sel : BufSel} {a : BitVec 32} {n : BitVec 16} (f : Nat → Byte)
    (len : Nat) : EndsWith s (.fdec sel a n) (decodeFrame f len s) := by
  rcases decodeFrame_cases f len s with ⟨e, -, hdec⟩ | ⟨-, hdec⟩
  · exact hdec ▸ .fault e
  · exact hdec ▸ .effect _ _ (.words _)

end

/-- The whole of what `respondSum` does. -/
theorem respondSum_eq (c : BitVec 8) (s : State) :
    respondSum c s = .next (({ s with sum := c } : State).answer .ok (c.setWidth 64)) := rfl

/-- A write-class operation that is not refused names a buffer it may write (R53). -/
theorem eq_named_of_writeTarget {sel : BufSel} {b : Buf} (h : writeTarget sel = some b) :
    sel = .named b ∧ b ≠ .rxb := by
  obtain ⟨hsel, rfl | rfl⟩ := writeTarget_cases h
  · exact ⟨hsel, by decide⟩
  · exact ⟨hsel, by decide⟩

/-- Every operation ends with one of its changes, or in its fault's state. -/
theorem endsWith_exec (i : Instr) (s : State) : EndsWith s i (exec i s) := by
  cases i with
  | srst => exact .effect _ _ .softReset
  | eclr mask => exact .effect _ _ (.esr mask)
  | fflush => exact .effect _ _ .flush
  | freq addr kind1 kind2 =>
    simp only [exec_freq, respondSum_eq]
    exact .effect _ _ (.request addr kind1 kind2 _)
  | fpush b => exact .effect _ _ (.scan b)
  | cmdset v c flags => exact .effect _ _ (.command v c flags)
  | cenc => exact .effect _ _ (.control _ _ (by decide))
  | cencoff => exact .effect _ _ (.control _ _ (by decide))
  | tack => exact .effect _ _ .acknowledged
  | nop => exact .effect _ _ (.unchanged _)
  | crd => exact .effect _ _ (.unchanged _)
  | crcinit => exact endsWith_respondCrc _ (by decide)
  | crcupd b => exact endsWith_respondCrc _ (by simp [opcode])
  | suminit => exact endsWith_respondSum _ (by decide)
  | sumupd b => exact endsWith_respondSum _ (by simp [opcode])
  | rdr reg => cases h : named reg <;> simp [exec, execRdr, h]
  | ldb sel a => cases h : named sel <;> simp [exec, execLdb, h]
  | bfget sel a n => cases h : named sel <;> simp [exec, execBfget, h]
  | fword k => cases h : named k <;> simp [exec, execFword, h]
  | tfld kind a n => cases h : named kind <;> simp [exec, execTfld, h]
  | crcbuf sel a n =>
    have hend (c) : EndsWith s (.crcbuf sel a n) (respondCrc c s) :=
      endsWith_respondCrc c (by simp [opcode])
    cases h : named sel <;> simp [exec, execCrcbuf, h, hend]
  | crcchk sel a n =>
    have hend (c) : EndsWith s (.crcchk sel a n) (respondCrc c s) :=
      endsWith_respondCrc c (by simp [opcode])
    cases h : named sel <;> simp [exec, execCrcchk, h, hend]
  | sumbuf sel a n =>
    have hend (c) : EndsWith s (.sumbuf sel a n) (respondSum c s) :=
      endsWith_respondSum c (by simp [opcode])
    cases h : named sel <;> simp [exec, execSumbuf, h, hend]
  | fdec sel a n =>
    cases sel with
    | named b => simp [exec_fdec_named, endsWith_decodeFrame]
    | reserved v => exact .fault .operandFault
  | cld id dlc payload =>
    rw [exec_cld]
    split_ifs with hlong
    · exact .fault _
    · exact .effect _ _ (.frame id payload (not_lt.mp hlong))
  | cdec =>
    cases hk : frameKind s with
    | none => exact exec_cdec_of_none hk ▸ .effect _ _ (.unchanged _)
    | some k => exact exec_cdec_of_some hk ▸ .effect _ _ (.record k)
  | stb sel a v =>
    cases hsel : writeTarget sel with
    | none => exact exec_of_operandReserved (i := .stb sel a v) s hsel ▸ .fault _
    | some b =>
      obtain ⟨rfl, hb⟩ := eq_named_of_writeTarget hsel
      rw [exec_stb_named s a v hb]
      split_ifs with hin
      · exact .effect _ _ (.byte v hb hin)
      · exact .fault _
  | crcapp sel a n =>
    cases hsel : writeTarget sel with
    | none => exact exec_of_operandReserved (i := .crcapp sel a n) s hsel ▸ .fault _
    | some b =>
      obtain ⟨rfl, hb⟩ := eq_named_of_writeTarget hsel
      by_cases hfits : a.toNat + n.toNat + 2 ≤ bufSize s b
      · exact exec_crcapp_ok rfl hb hfits ▸ .effect _ _ (.trailer _ hb hfits)
      · exact exec_crcapp_indexFault hb (not_le.mp hfits) ▸ .fault _
  | bfset sel a n d =>
    cases hsel : writeTarget sel with
    | none => exact exec_of_operandReserved (i := .bfset sel a n d) s (.inl hsel) ▸ .fault _
    | some b =>
      obtain ⟨rfl, hb⟩ := eq_named_of_writeTarget hsel
      rw [exec_bfset_named s a n d hb]
      split_ifs with hlong hout
      · exact .fault _
      · exact .fault _
      · exact .effect _ _ (.field d hb (bitsInRange_of_not_beyond hout))

/-- All that an operation that answers a next state can be. -/
theorem exec_cases {i : Instr} {s t : State} (h : exec i s = .next t) :
    (∃ f, t = s.raised f) ∨ ∃ u st r, Effect s i u ∧ t = u.answer st r := by
  have hends : EndsWith s i (.next t) := h ▸ endsWith_exec i s
  cases hends with
  | fault f => exact .inl ⟨f, rfl⟩
  | effect st r heffect => exact .inr ⟨_, st, r, heffect, rfl⟩

end Sys2Proof.Machine
end

section
/-! Who writes what (R24 to R43): the frame of a buffer write, one lemma per register, buffer or
group of them that names its writers among the changes, then the three obligations. -/

namespace Sys2Proof.Machine

/-! ### Frames -/

/-- What replacing the bytes of a buffer can change. -/
theorem setBuf_frame (s : State) (b : Buf) (m : Memory) :
    setBuf s b m = { s with wb := (setBuf s b m).wb, rxb := (setBuf s b m).rxb
                            cb := (setBuf s b m).cb } := by
  cases b <;> rfl

/-- A write-class operation never reaches the scanner's buffer (R53). -/
theorem setBuf_rxb_of_ne (s : State) {b : Buf} (m : Memory) (hb : b ≠ .rxb) :
    (setBuf s b m).rxb = s.rxb := by
  cases b with
  | wb => rfl
  | rxb => exact absurd rfl hb
  | cb => rfl

/-- An opcode in one list is in every list that has all of it. -/
theorem absurd_writer {op : BitVec 8} {l l' : List (BitVec 8)} {p : Prop} (hop : op ∈ l)
    (hnot : op ∉ l') (hsub : l ⊆ l') : p :=
  absurd (hsub hop) hnot

/-! ### The writers of each register -/

namespace Effect

variable {s u : State} {i : Instr}

/-- The writers of CRC (R24). -/
theorem crc_eq (h : Effect s i u)
    (hi : opcode i ∉ [0x01#8, 0x20#8, 0x21#8, 0x22#8, 0x23#8, 0x24#8]) : u.crc = s.crc := by
  cases h with
  | crc c hop => exact absurd_writer hop hi (by decide)
  | softReset | trailer => simp [opcode] at hi
  | byte | field => rw [setBuf_frame]
  | scan => rw [scanByte_frame]
  | _ => rfl

/-- The writers of SUM (R25). -/
theorem sum_eq (h : Effect s i u) (hi : opcode i ∉ [0x01#8, 0x30#8, 0x31#8, 0x32#8, 0x51#8]) :
    u.sum = s.sum := by
  cases h with
  | sum c hop => exact absurd_writer hop hi (by decide)
  | softReset | request => simp [opcode] at hi
  | byte | field | trailer => rw [setBuf_frame]
  | scan => rw [scanByte_frame]
  | _ => rfl

/-- The writers of the command registers (R31). -/
theorem cmd_eq (h : Effect s i u) (hi : opcode i ∉ [0x01#8, 0x60#8]) :
    u.cmdv = s.cmdv ∧ u.cmdi = s.cmdi ∧ u.cmdf = s.cmdf := by
  cases h with
  | softReset | command => simp [opcode] at hi
  | byte | field | trailer => rw [setBuf_frame]; exact ⟨rfl, rfl, rfl⟩
  | scan => rw [scanByte_frame]; exact ⟨rfl, rfl, rfl⟩
  | _ => exact ⟨rfl, rfl, rfl⟩

/-- The writers of the CAN header (R30). -/
theorem header_eq (h : Effect s i u) (hi : opcode i ∉ [0x01#8, 0x61#8, 0x62#8, 0x63#8]) :
    u.cid = s.cid ∧ u.cdlc = s.cdlc := by
  cases h with
  | control en cur hop => exact absurd_writer hop hi (by decide)
  | softReset | frame => simp [opcode] at hi
  | byte | field | trailer => rw [setBuf_frame]; exact ⟨rfl, rfl⟩
  | scan => rw [scanByte_frame]; exact ⟨rfl, rfl⟩
  | _ => exact ⟨rfl, rfl⟩

/-- The writer of the decoded words (R33). -/
theorem bmw_eq (h : Effect s i u) (hi : opcode i ≠ 0x53#8) : u.bmw = s.bmw := by
  cases h with
  | words => exact absurd rfl hi
  | byte | field | trailer => rw [setBuf_frame]
  | scan => rw [scanByte_frame]
  | _ => rfl

/-- The writers of the decoded words' valid bit (R33). -/
theorem bmv_eq (h : Effect s i u) (hi : opcode i ≠ 0x53#8) (hi' : opcode i ≠ 0x01#8) :
    u.bmv = s.bmv := by
  cases h with
  | words => exact absurd rfl hi
  | softReset => exact absurd rfl hi'
  | byte | field | trailer => rw [setBuf_frame]
  | scan => rw [scanByte_frame]
  | _ => rfl

/-! ### The writers of each buffer -/

/-- The writer of the scanner's buffer (R27, R53). -/
theorem rxb_eq (h : Effect s i u) (hi : opcode i ≠ 0x52#8) : u.rxb = s.rxb := by
  cases h with
  | scan => exact absurd rfl hi
  | byte v hb | field d hb | trailer c hb => exact setBuf_rxb_of_ne s _ hb
  | _ => rfl

/-- The writers of the scanner's registers (R27, R28). -/
theorem scanner_eq (h : Effect s i u) (hi : opcode i ∉ [0x01#8, 0x50#8, 0x52#8]) :
    u.rxlen = s.rxlen ∧ u.fst = s.fst := by
  cases h with
  | softReset | flush | scan => simp [opcode] at hi
  | byte | field | trailer => rw [setBuf_frame]; exact ⟨rfl, rfl⟩
  | _ => exact ⟨rfl, rfl⟩

/-- The writers of WB (R26). -/
theorem wb_eq (h : Effect s i u) (hi : opcode i ∉ [0x11#8, 0x23#8, 0x41#8, 0x51#8]) :
    u.wb = s.wb := by
  cases h with
  | byte | field | trailer | request => simp [opcode] at hi
  | scan => rw [scanByte_frame]
  | _ => rfl

/-- The writers of CB (R30). -/
theorem cb_eq (h : Effect s i u)
    (hi : opcode i ∉ [0x01#8, 0x11#8, 0x23#8, 0x41#8, 0x61#8, 0x62#8, 0x63#8]) :
    u.cb = s.cb := by
  cases h with
  | control en cur hop => exact absurd_writer hop hi (by decide)
  | softReset | byte | field | trailer | frame => simp [opcode] at hi
  | scan => rw [scanByte_frame]
  | _ => rfl

/-- The writers of the record file (R39). -/
theorem tel_eq (h : Effect s i u) (hi : opcode i ∉ [0x01#8, 0x65#8]) : u.tel = s.tel := by
  cases h with
  | softReset | record => simp [opcode] at hi
  | byte | field | trailer => rw [setBuf_frame]
  | scan => rw [scanByte_frame]
  | _ => rfl

/-- The writers of TCHG (R40). -/
theorem tchg_eq (h : Effect s i u) (hi : opcode i ∉ [0x01#8, 0x65#8, 0x67#8]) :
    u.tchg = s.tchg := by
  cases h with
  | softReset | record | acknowledged => simp [opcode] at hi
  | byte | field | trailer => rw [setBuf_frame]
  | scan => rw [scanByte_frame]
  | _ => rfl

/-- Nothing writes the parameters or what the outside presents next (R43, log entries 1 and 2). -/
theorem par_port_eq (h : Effect s i u) : u.par = s.par ∧ u.port = s.port := by
  cases h with
  | byte | field | trailer => rw [setBuf_frame]; exact ⟨rfl, rfl⟩
  | scan => rw [scanByte_frame]; exact ⟨rfl, rfl⟩
  | _ => exact ⟨rfl, rfl⟩

end Effect

/-! ### The obligations -/

/-- Settles O51: a fault writes none of these registers, and each change only its own. -/
theorem registersHaveOnlyTheirWriters : Obligations.RegistersHaveOnlyTheirWriters := by
  intro i s t h
  rcases exec_cases h with ⟨f, rfl⟩ | ⟨u, st, r, heffect, rfl⟩
  · exact ⟨fun _ => rfl, fun _ => rfl, fun _ => ⟨rfl, rfl, rfl⟩, fun _ => ⟨rfl, rfl⟩,
      fun _ => ⟨rfl, fun _ => rfl⟩⟩
  · exact ⟨heffect.crc_eq, heffect.sum_eq, heffect.cmd_eq, heffect.header_eq,
      fun hi => ⟨heffect.bmw_eq hi, heffect.bmv_eq hi⟩⟩

/-- Settles O52: a fault writes no buffer, and each change only its own. -/
theorem buffersHaveOnlyTheirWriters : Obligations.BuffersHaveOnlyTheirWriters := by
  intro i s t h
  rcases exec_cases h with ⟨f, rfl⟩ | ⟨u, st, r, heffect, rfl⟩
  · exact ⟨fun _ => rfl, fun _ => ⟨rfl, rfl⟩, fun _ => rfl, fun _ => rfl, fun _ => rfl,
      fun _ => rfl⟩
  · exact ⟨heffect.rxb_eq, heffect.scanner_eq, heffect.wb_eq, heffect.cb_eq, heffect.tel_eq,
      heffect.tchg_eq⟩

/-- No operation writes the parameters or the port. -/
theorem exec_par_port {i : Instr} {s t : State} (h : exec i s = .next t) :
    t.par = s.par ∧ t.port = s.port := by
  rcases exec_cases h with ⟨f, rfl⟩ | ⟨u, st, r, heffect, rfl⟩
  · exact ⟨rfl, rfl⟩
  · exact heffect.par_port_eq

/-- Settles O53, by what a step can be. -/
theorem parametersAndProgramAreOutOfReach : Obligations.ParametersAndProgramAreOutOfReach := by
  refine ⟨fun i s t h => (exec_par_port h).2, fun s t h => ?step⟩
  rcases step_cases h with ⟨hport, rfl⟩ |
    ⟨x, rest, hport, ⟨wb, -, rfl⟩ | ⟨w, i, -, -, hexec⟩ | ⟨w, e, -, -, rfl⟩⟩
  · exact ⟨rfl, by rw [hport, List.tail_nil]⟩
  · exact ⟨rfl, by rw [hport, List.tail_cons, powerOn_port]⟩
  · rw [hport]
    exact exec_par_port hexec
  · exact ⟨rfl, by rw [hport, List.tail_cons, State.raised_port]⟩

end Sys2Proof.Machine
end

section
/-! ESR (R32, R231): that the other state and the response do not depend on it, that its bits are
sticky, that sixteen operations set none of its fault bits, then the two obligations. -/

namespace Sys2Proof.Machine

/-! ### What does not depend on ESR -/

/-- Two endings that agree in everything but ESR. -/
inductive EsrBlind : Res → Res → Prop where
  | mk (t : State) (e : BitVec 16) : EsrBlind (.next t) (.next { t with esr := e })

namespace EsrBlind

variable {s : State} {e : BitVec 16}

/-- A response does not show ESR. -/
theorem answer (u : State) (st : Status) (r : BitVec 64) :
    EsrBlind (.next (u.answer st r)) (.next (({ u with esr := e } : State).answer st r)) :=
  mk (u.answer st r) e

/-- A fault adds its bit to either ESR. -/
theorem raised (f : EngFault) :
    EsrBlind (.next (s.raised f)) (.next (({ s with esr := e } : State).raised f)) :=
  mk (s.raised f) (esrWith f.esrBit e)

/-- A test that does not look at ESR. -/
theorem ite (c : Prop) [Decidable c] {x x' y y' : Res} (hx : EsrBlind x x')
    (hy : EsrBlind y y') : EsrBlind (if c then x else y) (if c then x' else y') := by
  split
  · exact hx
  · exact hy

/-- A byte into the scanner may set the resync bit, and does not look at ESR (R154). -/
theorem exists_scanByte_esr (b : Byte) (s : State) (e : BitVec 16) :
    ∃ e', scanByte b { s with esr := e } = { scanByte b s with esr := e' } := by
  unfold scanByte scanHunt1 scanCollect scanFooter
  dsimp only
  repeat' split
  all_goals exact ⟨_, rfl⟩

/-- Decoding a frame does not look at ESR. -/
theorem decodeFrame (f : Nat → Byte) (len : Nat) (s : State) (e : BitVec 16) :
    EsrBlind (decodeFrame f len s) (decodeFrame f len { s with esr := e }) := by
  rw [decodeFrame_eq, decodeFrame_eq]
  dsimp only
  split_ifs
  all_goals exact mk _ _

end EsrBlind

/-- Every operation but RDR of ESR and ECLR ends alike whatever ESR holds (R231). -/
theorem esrBlind_exec {i : Instr} (s : State) (e : BitVec 16) (hrdr : i ≠ .rdr (.named .esr))
    (heclr : ∀ m, i ≠ .eclr m) : EsrBlind (exec i s) (exec i { s with esr := e }) := by
  cases i with
  | eclr mask => exact absurd rfl (heclr mask)
  | rdr reg =>
    cases reg with
    | reserved v => exact .raised _
    | named x =>
      cases x
      case esr => exact absurd rfl hrdr
      all_goals exact .answer ..
  | nop => exact .answer ..
  | srst => exact .answer ..
  | crcinit => exact .answer ..
  | crcupd b => exact .answer ..
  | suminit => exact .answer ..
  | sumupd b => exact .answer ..
  | fflush => exact .answer ..
  | freq addr kind1 kind2 =>
    rw [exec_freq, exec_freq]
    generalize withRequest s.wb addr kind1 kind2 = m
    exact .answer ..
  | cmdset v c flags => exact .answer ..
  | cenc => exact .answer ..
  | cencoff => exact .answer ..
  | crd => exact .answer ..
  | tack => exact .answer ..
  | cld id dlc payload => exact .ite _ (.raised _) (.answer ..)
  | ldb sel a =>
    cases sel with
    | reserved v => exact .raised _
    | named b => exact .ite _ (.raised _) (.answer ..)
  | crcbuf sel a n =>
    cases sel with
    | reserved v => exact .raised _
    | named b => exact .ite _ (.answer ..) (.raised _)
  | crcchk sel a n =>
    cases sel with
    | reserved v => exact .raised _
    | named b => exact .ite _ (.ite _ (.raised _) (.ite _ (.answer ..) (.raised _))) (.raised _)
  | sumbuf sel a n =>
    cases sel with
    | reserved v => exact .raised _
    | named b => exact .ite _ (.answer ..) (.raised _)
  | bfget sel a n =>
    cases sel with
    | reserved v => exact .raised _
    | named b => exact .ite _ (.raised _) (.ite _ (.answer ..) (.raised _))
  | fword k =>
    cases k with
    | reserved v => exact .raised _
    | named x => exact .ite _ (.answer ..) (.answer ..)
  | tfld kind a n =>
    cases kind with
    | reserved v => exact .raised _
    | named k =>
      exact .ite _ (.raised _) (.ite _ (.ite _ (.answer ..) (.answer ..)) (.raised _))
  | stb sel a v =>
    rcases sel with (_ | _ | _) | v
    case named.rxb | reserved => exact .raised _
    all_goals exact .ite _ (.raised _) (.answer ..)
  | crcapp sel a n =>
    rcases sel with (_ | _ | _) | v
    case named.rxb | reserved => exact .raised _
    all_goals exact .ite _ (.raised _) (.answer ..)
  | bfset sel a n d =>
    rcases sel with (_ | _ | _) | v
    case named.rxb | reserved => exact .raised _
    all_goals exact .ite _ (.raised _) (.ite _ (.answer ..) (.raised _))
  | fdec sel a n =>
    rcases sel with (_ | _ | _) | v
    case reserved => exact .raised _
    case named.rxb => exact .ite _ (.decodeFrame ..) (.answer ..)
    all_goals exact .ite _ (.decodeFrame ..) (.raised _)
  | cdec =>
    have hkind : frameKind { s with esr := e } = frameKind s := rfl
    cases hk : frameKind s with
    | none =>
      rw [exec_cdec_of_none hk, exec_cdec_of_none (hkind.trans hk)]
      exact .answer ..
    | some k =>
      rw [exec_cdec_of_some hk, exec_cdec_of_some (hkind.trans hk)]
      exact .answer ..
  | fpush b =>
    obtain ⟨e', he'⟩ := EsrBlind.exists_scanByte_esr b s e
    simp only [exec, execFpush, he', respond_eq]
    exact .answer ..

/-! ### What sets and clears the bits of ESR -/

/-- Setting a bit clears none. -/
theorem getLsbD_esrWith (bit : Nat) {esr : BitVec 16} {k : Nat} (h : esr.getLsbD k = true) :
    (esrWith bit esr).getLsbD k = true := by
  simp [esrWith, h]

/-- A byte into the scanner leaves ESR, or sets the resync bit (R154). -/
theorem scanByte_esr_cases (b : Byte) (s : State) :
    (scanByte b s).esr = s.esr ∨ (scanByte b s).esr = esrWith resyncBit s.esr := by
  unfold scanByte scanHunt1 scanCollect scanFooter
  dsimp only
  repeat' split
  all_goals simp

/-- A byte into the scanner clears no bit of ESR. -/
theorem getLsbD_scanByte_esr (b : Byte) {s : State} {k : Nat} (h : s.esr.getLsbD k = true) :
    (scanByte b s).esr.getLsbD k = true := by
  rcases scanByte_esr_cases b s with hesr | hesr
  · rw [hesr, h]
  · rw [hesr, getLsbD_esrWith resyncBit h]

/-- Only ECLR and SRST clear a bit of ESR (R32). -/
theorem Effect.getLsbD_esr {s u : State} {i : Instr} (h : Effect s i u)
    (hi : opcode i ∉ [0x01#8, 0x03#8]) {k : Nat} (hk : s.esr.getLsbD k = true) :
    u.esr.getLsbD k = true := by
  cases h with
  | softReset | esr => simp [opcode] at hi
  | byte | field | trailer => rw [setBuf_frame]; exact hk
  | scan b => exact getLsbD_scanByte_esr b hk
  | _ => exact hk

/-! ### The operations that never fault -/

/-- An ending with OK or a non-fault outcome. -/
def EndsBelowFaults (x : Res) : Prop :=
  ∃ t st r, x = .next t ∧ t.rsp = some ⟨st, r⟩ ∧ st.code.toNat < 0x10

/-- An answer is as good as its status. -/
theorem endsBelowFaults_answer {s : State} {st : Status} (r : BitVec 64)
    (h : st.code.toNat < 0x10) : EndsBelowFaults (.next (s.answer st r)) :=
  ⟨_, st, r, rfl, rfl, h⟩

/-- FPUSH answers OK or BUSY (R150, R155). -/
theorem endsBelowFaults_fpush (b : Byte) (s : State) : EndsBelowFaults (exec (.fpush b) s) := by
  by_cases hready : s.fst = .ready
  · exact exec_fpush_of_ready b hready ▸ endsBelowFaults_answer _ (by decide)
  · exact exec_fpush_ok hready rfl rfl ▸ endsBelowFaults_answer _ (by decide)

/-- CDEC answers OK or IGNORED (R192). -/
theorem endsBelowFaults_cdec (s : State) : EndsBelowFaults (exec .cdec s) := by
  cases hk : frameKind s with
  | none => exact exec_cdec_of_none hk ▸ endsBelowFaults_answer _ (by decide)
  | some k => exact exec_cdec_of_some hk ▸ endsBelowFaults_answer _ (by decide)

/-! ### The obligations -/

/-- Settles O50: the endings agree up to ESR, and neither a fault nor a change clears a bit. -/
theorem noOperationDependsOnEsr : Obligations.NoOperationDependsOnEsr := by
  refine ⟨fun i s t e hrdr heclr h => ?blind, fun i s t hi h k hk => ?sticky⟩
  case blind =>
    have hblind := esrBlind_exec s e hrdr heclr
    rw [h] at hblind
    generalize exec i { s with esr := e } = y at hblind ⊢
    cases hblind with
    | mk _ e' => exact ⟨e', rfl⟩
  case sticky =>
    rcases exec_cases h with ⟨f, rfl⟩ | ⟨u, st, r, heffect, rfl⟩
    · exact getLsbD_esrWith f.esrBit hk
    · exact heffect.getLsbD_esr hi hk

/-- Settles O49: of the sixteen only FPUSH and CDEC have more than one ending. -/
theorem sixteenOperationsNeverFault : Obligations.SixteenOperationsNeverFault := by
  intro i s hi
  cases i with
  | fpush b => exact endsBelowFaults_fpush b s
  | cdec => exact endsBelowFaults_cdec s
  | nop | srst | eclr | crcinit | crcupd | suminit | sumupd | fflush | freq | cmdset | cenc
  | cencoff | crd | tack => exact endsBelowFaults_answer _ (by decide)
  | _ => simp [opcode] at hi

end Sys2Proof.Machine
end

section
/-! The CRC as a function (R115 to R129): the bit loop turn by turn, that it is linear and only
shifts what has no low bits left, the residue, a frame with its trailer, then the five
obligations. -/

namespace Sys2Proof.Machine

/-! ### The bit loop -/

/-- The bit loop taken from its last turn. -/
theorem crcShifts_succ (k : Nat) (c : BitVec 16) :
    crcShifts (k + 1) c = crcShift (crcShifts k c) := by
  induction k generalizing c with
  | zero => rfl
  | succ k ih => exact ih (crcShift c)

/-- A turn is linear: the shift is, and so is the test of the bit shifted out (R115). -/
theorem crcShift_xor (x y : BitVec 16) : crcShift (x ^^^ y) = crcShift x ^^^ crcShift y := by
  have hbit : (x ^^^ y).getLsbD 0 = (x.getLsbD 0 ^^ y.getLsbD 0) := BitVec.getLsbD_xor ..
  simp only [crcShift, hbit, BitVec.ushiftRight_xor_distrib]
  cases x.getLsbD 0 <;> cases y.getLsbD 0
  all_goals simp only [Bool.xor_false, Bool.xor_true, Bool.not_true, Bool.not_false,
    Bool.false_eq_true, if_true, if_false]
  case false.true => rw [BitVec.xor_assoc]
  case true.false => ac_rfl
  case true.true =>
    have hpair : (x >>> 1 ^^^ Config.crcPoly) ^^^ (y >>> 1 ^^^ Config.crcPoly) =
        (x >>> 1 ^^^ y >>> 1) ^^^ (Config.crcPoly ^^^ Config.crcPoly) := by ac_rfl
    rw [hpair, BitVec.xor_self, BitVec.xor_zero]

/-- The bit loop is linear. -/
theorem crcShifts_xor (k : Nat) (x y : BitVec 16) :
    crcShifts k (x ^^^ y) = crcShifts k x ^^^ crcShifts k y := by
  induction k generalizing x y with
  | zero => rfl
  | succ k ih => rw [crcShifts, crcShift_xor, ih, crcShifts, crcShifts]

/-- As long as no 1 is shifted out the bit loop only shifts. -/
theorem crcShifts_of_low_zero {k : Nat} {x : BitVec 16} (h : ∀ j, j < k → x.getLsbD j = false) :
    crcShifts k x = x >>> k := by
  induction k generalizing x with
  | zero => exact (BitVec.ushiftRight_zero x).symm
  | succ k ih =>
    have hturn : crcShift x = x >>> 1 := by rw [crcShift, h 0 (by omega)]; rfl
    have hlow (j : Nat) (hj : j < k) : (x >>> 1).getLsbD j = false := by
      rw [BitVec.getLsbD_ushiftRight]
      exact h _ (by omega)
    rw [crcShifts, hturn, ih hlow, ← BitVec.shiftRight_add, Nat.add_comm]

/-! ### One step -/

/-- A step is linear in the accumulator and the byte together. -/
theorem crcStep_xor (c c' : BitVec 16) (b b' : Byte) :
    crcStep (c ^^^ c') (b ^^^ b') = crcStep c b ^^^ crcStep c' b' := by
  rw [crcStep, crcStep, crcStep, ← crcShifts_xor, BitVec.setWidth_xor]
  congr 1
  ac_rfl

/-- A byte equal to the low byte of the accumulator cancels it, and the rest is shifted. -/
theorem crcStep_low (c : BitVec 16) : crcStep c (c.setWidth 8) = c >>> 8 := by
  have hlow (j : Nat) (hj : j < 8) : (c ^^^ (c.setWidth 8).setWidth 16).getLsbD j = false := by
    simp [hj, show j < 16 by omega]
  rw [crcStep, crcShifts_of_low_zero hlow]
  refine BitVec.eq_of_getLsbD_eq fun i hi => ?_
  simp

/-- A step is the shift of the accumulator and the step of what the byte differs by from its low
byte. -/
theorem crcStep_eq_table (c : BitVec 16) (b : Byte) :
    crcStep c b = (c >>> 8) ^^^ crcStep 0#16 (c.setWidth 8 ^^^ b) := by
  have hsplit := crcStep_xor c 0#16 (c.setWidth 8) (c.setWidth 8 ^^^ b)
  rwa [BitVec.xor_zero, ← BitVec.xor_assoc, BitVec.xor_self, BitVec.zero_xor, crcStep_low] at hsplit

/-! ### A message with its trailer -/

/-- The low trailer byte takes the accumulator's low byte away, the high one the rest (R129). -/
theorem crcFrom_trailer (c : BitVec 16) : crcFrom c [crcLo c, crcHi c] = 0#16 := by
  have hlo : crcLo c = c.setWidth 8 := BitVec.eq_of_toNat_eq (by simp [crcLo])
  have hhi : crcHi c = (c >>> 8).setWidth 8 := BitVec.setWidth_ushiftRight_eq_extractLsb.symm
  rw [crcFrom, crcFrom, crcFrom, hlo, crcStep_low, hhi, crcStep_low, ← BitVec.shiftRight_add]
  exact BitVec.ushiftRight_eq_zero (le_refl 16)

/-- The trailer stands behind the message and leaves its bytes alone. -/
theorem bytes_withTrailer (m : Memory) (i n : Nat) (c : BitVec 16) :
    (withTrailer m (i + n) c).bytes i n = m.bytes i n := by
  refine Memory.bytes_congr i n fun k hk => ?_
  rw [read_withTrailer, if_neg (by omega), if_neg (by omega)]

/-- The size of a buffer that may be written is fixed (R52). -/
theorem bufSize_setBuf (s : State) {b : Buf} (m : Memory) (hb : b ≠ .rxb) :
    bufSize (setBuf s b m) b = bufSize s b := by
  cases b with
  | wb => rfl
  | rxb => exact absurd rfl hb
  | cb => rfl

/-- The bytes written into a buffer are its bytes. -/
@[simp] theorem bufMem_setBuf (s : State) (b : Buf) (m : Memory) : bufMem (setBuf s b m) b = m := by
  cases b <;> rfl

/-- CRCCHK of a message followed by its own trailer answers OK with the CRC of the message (R126). -/
theorem exec_crcchk_of_trailer {s : State} {b : Buf} {a : BitVec 32} {n k : BitVec 16}
    {m : Memory} {c : BitVec 16} (hk : k.toNat = n.toNat + 2) (hn : 1 ≤ n.toNat)
    (hfits : a.toNat + k.toNat ≤ bufSize s b) (hc : c = crc16 (m.bytes a.toNat n.toNat))
    (hm : bufMem s b = withTrailer m (a.toNat + n.toNat) c) :
    exec (.crcchk (.named b) a k) s = respondCrc c s := by
  have hmessage : c = crc16 ((bufMem s b).bytes a.toNat (k.toNat - 2)) := by
    rw [hm, hk, Nat.add_sub_cancel, bytes_withTrailer, hc]
  have htrailer : TrailerMatches (bufMem s b) a k c := by
    have hlo : a.toNat + k.toNat - 2 = a.toNat + n.toNat := by omega
    have hhi : a.toNat + k.toNat - 1 = a.toNat + n.toNat + 1 := by omega
    simp [TrailerMatches, hm, hlo, hhi, read_withTrailer]
  rw [exec_crcchk_of_inRange hmessage ((bytesInRange_iff ..).mpr (.inr hfits)),
    if_neg (by omega), if_pos htrailer]

/-! ### The obligations -/

/-- Settles O11: `f k` is the accumulator after `k` turns. -/
theorem crcStepIsTheBitLoop : Obligations.CrcStepIsTheBitLoop := fun c b =>
  ⟨fun k => crcShifts k (c ^^^ b.setWidth 16), rfl, fun _ _ => crcShifts_succ .., rfl⟩

/-- Settles O12: the CRC of a concatenation goes on from its first part. -/
theorem crc16FoldsFromTheSeed : Obligations.Crc16FoldsFromTheSeed :=
  ⟨rfl, fun bs b => crcFrom_append Config.crcSeed bs [b]⟩

/-- Settles O13, by linearity. -/
theorem crcStepIsATableStep : Obligations.CrcStepIsATableStep := crcStep_eq_table

/-- Settles O19: the trailer cancels the CRC it was taken from. -/
theorem crcResidueIsZero : Obligations.CrcResidueIsZero := fun bs =>
  (crcFrom_append Config.crcSeed bs _).trans (crcFrom_trailer (crc16 bs))

/-- Settles O18: CRCCHK covers the same message and finds the trailer behind it. -/
theorem crcappThenCrcchkAccepts : Obligations.CrcappThenCrcchkAccepts := by
  intro s b a n hb hn hfits
  have hsize : bufSize s b ≤ 256 := by
    cases b with
    | wb => simp
    | rxb => exact absurd rfl hb
    | cb => simp
  have hk : (n + 2#16).toNat = n.toNat + 2 := by
    rw [BitVec.toNat_add, BitVec.toNat_ofNat]
    omega
  refine ⟨_, _, _, exec_crcapp_ok rfl hb hfits, exec_crcchk_of_trailer hk hn ?fits rfl ?content,
    rfl, rfl⟩
  case fits => exact hk ▸ hfits.trans_eq (bufSize_setBuf s _ hb).symm
  case content => exact bufMem_setBuf ..

end Sys2Proof.Machine
end

section
/-! The bit-field codec's laws (R58, R108, R109) and a CAN frame read back whole (R186, R192, R196):
buffers and fields from their bits, then the four obligations. -/

namespace Sys2Proof.Machine

/-! ### From bits to buffers and numbers -/

/-- Canonical buffers with the same bits are equal data. -/
theorem Memory.ext_of_bits {m m' : Memory} (h : m.wf = true) (h' : m'.wf = true)
    (hbits : ∀ p, m.bit p = m'.bit p) : m = m' :=
  Memory.ext_of_wf h h' fun _ => Memory.read_eq_of_bits fun _ _ => hbits _

/-- `bf_get` sees the bits of its field only (R100). -/
theorem bfGet_congr {m m' : Memory} {start len : Nat} (hlen : len ≤ 64)
    (hbits : ∀ i, i < len → m.bit (start + i) = m'.bit (start + i)) :
    bfGet m start len = bfGet m' start len := by
  refine BitVec.eq_of_getLsbD_eq fun i _ => ?_
  rw [getLsbD_bfGet _ _ _ _ hlen, getLsbD_bfGet _ _ _ _ hlen]
  by_cases hi : i < len
  · rw [hbits i hi]
  · simp [hi]

/-- The field whose bits are those of a number, as a number (R100). -/
theorem toNat_bfGet_of_bits {m : Memory} {start len x : Nat} (hlen : len ≤ 64)
    (hbits : ∀ i, i < len → m.bit (start + i) = x.testBit i) :
    (bfGet m start len).toNat = x % 2 ^ len := by
  refine Nat.eq_of_testBit_eq fun i => ?_
  rw [BitVec.testBit_toNat, getLsbD_bfGet _ _ _ _ hlen, Nat.testBit_mod_two_pow]
  by_cases hi : i < len
  · rw [hbits i hi]
  · simp [hi]

/-- A bit of the field `bf_set` wrote (R101). -/
theorem bit_bfSet_inside (m : Memory) {start len i : Nat} (v : BitVec 64) (h : i < len) :
    (bfSet m start len v).bit (start + i) = v.getLsbD i := by
  rw [bit_bfSet, if_pos (by omega), Nat.add_sub_cancel_left]

/-- A bit outside the field `bf_set` wrote (R101). -/
theorem bit_bfSet_outside (m : Memory) {start len p : Nat} (v : BitVec 64)
    (h : p < start ∨ start + len ≤ p) : (bfSet m start len v).bit p = m.bit p := by
  rw [bit_bfSet, if_neg (by omega)]

/-! ### The codec's laws -/

/-- `bf_get` reads what `bf_set` wrote, cut to the field (R108). -/
theorem toNat_bfGet_bfSet (m : Memory) (start : Nat) {len : Nat} (v : BitVec 64)
    (hlen : len ≤ 64) : (bfGet (bfSet m start len v) start len).toNat = v.toNat % 2 ^ len :=
  toNat_bfGet_of_bits hlen fun _ hi => bit_bfSet_inside m v hi

/-- Setting a field twice is setting it once (R109). -/
theorem bfSet_bfSet_same {m : Memory} (start len : Nat) (v : BitVec 64) (hm : m.wf = true) :
    bfSet (bfSet m start len v) start len v = bfSet m start len v := by
  have hwf := wf_bfSet start len v hm
  refine Memory.ext_of_bits (wf_bfSet start len v hwf) hwf fun p => ?_
  rw [bit_bfSet (bfSet m start len v), bit_bfSet m]
  split_ifs <;> rfl

/-- Disjoint fields commute (R109). -/
theorem bfSet_bfSet_comm {m : Memory} {s1 l1 s2 l2 : Nat} (v1 v2 : BitVec 64)
    (hm : m.wf = true) (hdisjoint : s1 + l1 ≤ s2) :
    bfSet (bfSet m s1 l1 v1) s2 l2 v2 = bfSet (bfSet m s2 l2 v2) s1 l1 v1 := by
  refine Memory.ext_of_bits (wf_bfSet _ _ _ (wf_bfSet _ _ _ hm))
    (wf_bfSet _ _ _ (wf_bfSet _ _ _ hm)) fun p => ?_
  by_cases hp : p < s2
  · rw [bit_bfSet_outside _ v2 (.inl hp), bit_bfSet, bit_bfSet, bit_bfSet_outside _ v2 (.inl hp)]
  · have hp1 : s1 + l1 ≤ p := by omega
    rw [bit_bfSet_outside (bfSet m s2 l2 v2) v1 (.inr hp1), bit_bfSet (bfSet m s1 l1 v1),
      bit_bfSet_outside m v1 (.inr hp1), bit_bfSet m]

/-! ### A received frame -/

/-- The bits of a loaded payload: those of the operand below the length (R57, R186). -/
theorem bit_payloadBytes (d : BitVec 64) {n : Nat} (p : Nat) :
    (payloadBytes d n).bit p = (decide (p < 8 * n) && d.getLsbD p) := by
  have hlt : p / 8 < n ↔ p < 8 * n := by omega
  have hp : 8 * (p / 8) + p % 8 = p := Nat.div_add_mod p 8
  rw [Memory.bit, read_payloadBytes]
  by_cases h : p < 8 * n
  · rw [if_pos (hlt.mpr h), BitVec.getLsbD_extractLsb', hp]
    simp [h, Nat.mod_lt]
  · rw [if_neg (mt hlt.mp h)]
    simp [h]

/-- A loaded payload read back whole (R186, R196). -/
theorem toNat_bfGet_payloadBytes (d : BitVec 64) {n : Nat} (hn : n ≤ 8) :
    (bfGet (payloadBytes d n) 0 64).toNat = d.toNat % 2 ^ (8 * n) := by
  have hfits : d.toNat % 2 ^ (8 * n) < 2 ^ 64 :=
    (Nat.mod_lt _ (Nat.two_pow_pos _)).trans_le (Nat.pow_le_pow_right (by omega) (by omega))
  rw [toNat_bfGet_of_bits (x := d.toNat % 2 ^ (8 * n)) le_rfl fun i _ => ?_, Nat.mod_eq_of_lt hfits]
  rw [Nat.zero_add, bit_payloadBytes, Nat.testBit_mod_two_pow, BitVec.testBit_toNat]

/-- The kind a frame replaces when its first matching entry's minimum is met (R190, R192). -/
theorem frameKind_eq_some {s : State} {e : IdEntry}
    (hfind : s.par.idTab.find? (fun e => decide (s.cid &&& e.mask = e.id)) = some e)
    (hlen : e.minlen ≤ s.cdlc.toNat) : frameKind s = some e.kind := by
  rw [frameKind_eq, hfind, Option.bind_some, if_neg hlen.not_gt]

/-- TFLD of a whole record that has been received (R196). -/
theorem exec_tfld_whole {s : State} {k : Kind} {m : Memory} (h : record s k = ⟨m, true⟩) :
    exec (.tfld (.named k) 0#32 64#16) s = .next (s.answer .ok (bfGet m 0 64)) := by
  rw [exec_tfld_inRange k (by decide) (by decide), h]
  rfl

/-! ### The obligations -/

/-- Settles O25: BFGET finds the field that BFSET left in the buffer. -/
theorem bitFieldRoundTrip : Obligations.BitFieldRoundTrip := by
  intro s b a n d hb hn hrange
  have hin : bitsInRange (bufSize s b) a n = true := (bitsInRange_iff ..).mpr hrange
  have hin' := bufSize_setBuf s (bfSet (bufMem s b) a.toNat n.toNat d) hb ▸ hin
  refine ⟨_, _, _, exec_bfset_ok d hb hn hin, exec_bfget_ok hn hin', rfl, ?value, fun p hp => ?frame⟩
  case value =>
    show (bfGet (bufMem (setBuf s b _) b) a.toNat n.toNat).toNat = _
    rw [bufMem_setBuf, toNat_bfGet_bfSet _ _ _ hn]
  case frame =>
    show (bufMem (setBuf s b _) b).bit p = _
    rw [bufMem_setBuf, bit_bfSet_outside _ d hp]
    rfl

/-- Settles O26: the laws of the codec, bit by bit. -/
theorem bitFieldLaws : Obligations.BitFieldLaws := by
  intro m s1 l1 s2 l2 v1 v2 hm hl1 hl2
  refine ⟨bfSet_bfSet_same s1 l1 v1 hm, fun hdisjoint =>
    ⟨bfSet_bfSet_comm v1 v2 hm hdisjoint, bfGet_congr hl2 fun i _ => ?second,
      bfGet_congr hl1 fun i hi => ?first⟩⟩
  case second => exact bit_bfSet_outside m v1 (.inr (by omega))
  case first => exact bit_bfSet_outside m v2 (.inl (by omega))

/-- Settles O27: bit `start + i` of LE64 is bit `start + i` of the buffer. -/
theorem bfgetIsASliceOfLe64 : Obligations.BfgetIsASliceOfLe64 := by
  intro m start len hlen
  refine toNat_bfGet_of_bits (by omega) fun i hi => ?_
  rw [Nat.testBit_shiftRight, BitVec.testBit_toNat, Memory.getLsbD_le64 _ _ (by omega)]

/-- Settles O46: CLD leaves the payload in CB, CDEC latches CB, TFLD reads what was latched. -/
theorem receivedFrameReadsBack : Obligations.ReceivedFrameReadsBack := by
  intro s id dlc payload e hfind hdlc hlen
  have hcdlc : (dlc.extractLsb' 0 4).toNat = dlc.toNat :=
    (BitVec.extractLsb'_toNat ..).trans (Nat.mod_eq_of_lt (by simp; omega))
  refine ⟨_, _, _, _, (exec_cld ..).trans (congrArg _ (if_neg hdlc.not_gt)),
    exec_cdec_of_some (frameKind_eq_some hfind (hlen.trans_eq hcdlc.symm)),
    exec_tfld_whole (record_latch_self ..), rfl, toNat_bfGet_payloadBytes payload hdlc⟩

end Sys2Proof.Machine
end

section
/-! The invariants (R45): each part of them under the change that concerns it, every change, every
step and every run, then the four obligations on them. -/

namespace Sys2Proof.Machine

/-! ### Buffers -/

/-- A larger bound holds too. -/
theorem Memory.within_mono {m : Memory} {n size : Nat} (h : m.within n = true) (hle : n ≤ size) :
    m.within size = true := by
  induction m with
  | nil => rfl
  | cons x m ih =>
    obtain ⟨b, w⟩ := x
    simp only [Memory.within, Bool.and_eq_true, decide_eq_true_eq] at h ⊢
    exact ⟨h.1.trans_le hle, ih h.2⟩

/-- The empty buffer. -/
theorem Memory.ok_nil (size : Nat) : Memory.ok size [] := ⟨rfl, rfl⟩

/-- Writing a byte inside the buffer. -/
theorem Memory.ok_write {m : Memory} {size i : Nat} (v : Byte) (h : Memory.ok size m)
    (hi : i < size) : Memory.ok size (m.write i v) :=
  ⟨Memory.wf_write i v h.1, Memory.within_write v h.2 hi⟩

/-- Writing a byte sequence inside the buffer. -/
theorem Memory.ok_writeBytes {m : Memory} {size i : Nat} {vs : List Byte} (h : Memory.ok size m)
    (hi : i + vs.length ≤ size) : Memory.ok size (m.writeBytes i vs) :=
  ⟨Memory.wf_writeBytes i vs h.1, Memory.within_writeBytes i vs h.2 hi⟩

/-- Setting a field inside the buffer. -/
theorem Memory.ok_bfSet {m : Memory} {size : Nat} {a : BitVec 32} {n : BitVec 16}
    (d : BitVec 64) (h : Memory.ok size m) (hn : bitsInRange size a n = true) :
    Memory.ok size (bfSet m a.toNat n.toNat d) :=
  ⟨wf_bfSet _ _ d h.1, within_bfSet d h.2 ((bitsInRange_iff ..).mp hn)⟩

/-- A loaded payload is an 8-byte buffer. -/
theorem ok_payloadBytes (d : BitVec 64) {n : Nat} (hn : n ≤ 8) : Memory.ok 8 (payloadBytes d n) :=
  ⟨wf_payloadBytes d n, Memory.within_mono (within_payloadBytes d n) hn⟩

/-- A control frame is an 8-byte buffer. -/
theorem ok_controlFrame (s : State) (en : BitVec 1) (cur : BitVec 64) :
    Memory.ok 8 (controlFrame s en cur) :=
  ⟨wf_controlFrame s en cur, within_controlFrame s en cur⟩

section
variable {s : State}

/-- A buffer that may be written is canonical and within its size. -/
theorem ok_bufMem {b : Buf} (h : Inv s) (hb : b ≠ .rxb) : Memory.ok (bufSize s b) (bufMem s b) := by
  obtain ⟨⟨hwb, -, hcb, -⟩, -⟩ := h
  cases b with
  | wb => exact hwb
  | rxb => exact absurd rfl hb
  | cb => exact hcb

/-- Replacing a buffer that may be written by one of its size. -/
theorem inv_setBuf {b : Buf} {m : Memory} (h : Inv s) (hb : b ≠ .rxb)
    (hm : Memory.ok (bufSize s b) m) : Inv (setBuf s b m) := by
  obtain ⟨⟨hwb, hrxb, hcb, htel⟩, hrest⟩ := h
  cases b with
  | wb => exact ⟨⟨hm, hrxb, hcb, htel⟩, hrest⟩
  | rxb => exact absurd rfl hb
  | cb => exact ⟨⟨hwb, hrxb, hm, htel⟩, hrest⟩

/-- Loading the frame registers (R179, R184, R186). -/
theorem inv_withFrame {m : Memory} {cid : BitVec 11} {cdlc : BitVec 4} (h : Inv s)
    (hm : Memory.ok 8 m) (hlen : cdlc.toNat ≤ 8) :
    Inv { s with cb := m, cid := cid, cdlc := cdlc } := by
  obtain ⟨⟨hwb, hrxb, -, htel⟩, hlen', hhunt, hcollect, hready, -, hrest⟩ := h
  exact ⟨⟨hwb, hrxb, hm, htel⟩, hlen', hhunt, hcollect, hready, hlen, hrest⟩

/-! ### ESR -/

/-- The faults and the resync use the bits below 11 (R32). -/
theorem esrOk_esrWith {bit : Nat} {esr : BitVec 16} (h : esr.extractLsb' 11 5 = 0#5)
    (hbit : bit < 11) : (esrWith bit esr).extractLsb' 11 5 = 0#5 := by
  have hone : (1#16 <<< bit).extractLsb' 11 5 = 0#5 := by interval_cases bit <;> rfl
  rw [esrWith, BitVec.extractLsb'_or, h, hone, BitVec.zero_or]

/-- The bit of a fault is below 11 (R32). -/
theorem esrBit_lt (f : EngFault) : f.esrBit < 11 := by
  cases f <;> decide

/-- No bit set (R44). -/
theorem esrOk_zero : (0x0000#16).extractLsb' 11 5 = 0#5 := rfl

/-- Replacing ESR by one with its upper bits zero. -/
theorem inv_withEsr {esr : BitVec 16} (h : Inv s) (hesr : esr.extractLsb' 11 5 = 0#5) :
    Inv { s with esr := esr } := by
  obtain ⟨hbuffers, hlen, hhunt, hcollect, hready, hcdlc, -, hchange⟩ := h
  exact ⟨hbuffers, hlen, hhunt, hcollect, hready, hcdlc, hesr, hchange⟩

/-- ESR's own part of the invariants. -/
theorem esrOk_of_inv (h : Inv s) : s.esr.extractLsb' 11 5 = 0#5 := by
  obtain ⟨-, -, -, -, -, -, hesr, -⟩ := h
  exact hesr

/-- A fault keeps the invariants (R230). -/
theorem inv_raised (f : EngFault) (h : Inv s) : Inv (s.raised f) :=
  inv_withEsr h (esrOk_esrWith (esrOk_of_inv h) (esrBit_lt f))

/-! ### Records -/

/-- Replacing a record by the payload in CB (R192). -/
theorem inv_latch (k : Kind) (h : Inv s) : Inv (latch k s) := by
  obtain ⟨⟨hwb, hrxb, hcb, htel⟩, hlen, hhunt, hcollect, hready, hcdlc, hesr, -⟩ := h
  refine ⟨⟨hwb, hrxb, hcb, fun j => ?payload⟩, hlen, hhunt, hcollect, hready, hcdlc, hesr,
    fun _ => ⟨k.num, ?valid⟩⟩
  case payload =>
    by_cases hj : j = k.num
    · subst hj
      exact (congrArg (Memory.ok 8 ·.raw) (record_latch_self s k)).mpr hcb
    · rw [getElem_latch_tel_of_ne s hj]
      exact htel j
  case valid => exact congrArg TelRecord.valid (record_latch_self s k)

/-- Taking the change flag back (R198). -/
theorem inv_acknowledged (h : Inv s) : Inv { s with tchg := false } := by
  obtain ⟨hbuffers, hlen, hhunt, hcollect, hready, hcdlc, hesr, -⟩ := h
  exact ⟨hbuffers, hlen, hhunt, hcollect, hready, hcdlc, hesr, fun h => Bool.noConfusion h⟩

end

/-! ### The scanner -/

/-- The scanner's part of the invariants. -/
abbrev ScannerOk (s : State) : Prop :=
  s.rxlen.toNat ≤ 261 ∧ HuntOk s ∧ CollectOk s ∧ ReadyOk s

section
variable {s : State}

/-- Replacing what belongs to the scanner, and ESR. -/
theorem inv_withScanner {rxb : Memory} {rxlen : BitVec 9} {fst : ScanState} {esr : BitVec 16}
    (h : Inv s) (hrxb : Memory.ok 261 rxb) (hesr : esr.extractLsb' 11 5 = 0#5)
    (hscan : ScannerOk { s with rxb := rxb, rxlen := rxlen, fst := fst, esr := esr }) :
    Inv { s with rxb := rxb, rxlen := rxlen, fst := fst, esr := esr } := by
  obtain ⟨⟨hwb, -, hcb, htel⟩, -, -, -, -, hcdlc, -, hchange⟩ := h
  obtain ⟨hlen, hhunt, hcollect, hready⟩ := hscan
  exact ⟨⟨hwb, hrxb, hcb, htel⟩, hlen, hhunt, hcollect, hready, hcdlc, hesr, hchange⟩

/-- A scanner that hunts and stores nothing. -/
theorem scannerOk_of_hunt (hfst : s.fst = .hunt0 ∨ s.fst = .hunt1) (hlen : s.rxlen.toNat = 0) :
    ScannerOk s := by
  have hcollect : s.fst ≠ .collect := by rcases hfst with h | h <;> simp [h]
  have hready : s.fst ≠ .ready := by rcases hfst with h | h <;> simp [h]
  exact ⟨by omega, fun _ => hlen, fun h => absurd h hcollect, fun h => absurd h hready⟩

/-- A scanner that collects an open frame. -/
theorem scannerOk_of_collect (hfst : s.fst = .collect) (hlow : 2 ≤ s.rxlen.toNat)
    (hmark : MarkerHeld s) (hopen : FrameOpen s) : ScannerOk s := by
  have hbyte : (s.rxb.read 3).toNat < 256 := (s.rxb.read 3).isLt
  have hhunt : ¬(s.fst = .hunt0 ∨ s.fst = .hunt1) := by simp [hfst]
  have hready : s.fst ≠ .ready := by simp [hfst]
  exact ⟨by omega, fun h => absurd h hhunt,
    fun _ => ⟨hlow, by omega, hmark, fun h => hopen.resolve_left (by omega)⟩,
    fun h => absurd h hready⟩

/-- A scanner that holds a frame. -/
theorem scannerOk_of_ready (hfst : s.fst = .ready)
    (hlen : s.rxlen.toNat = (s.rxb.read 3).toNat + 6) (hmark : MarkerHeld s)
    (hfoot : FooterHeld s) : ScannerOk s := by
  have hbyte : (s.rxb.read 3).toNat < 256 := (s.rxb.read 3).isLt
  have hhunt : ¬(s.fst = .hunt0 ∨ s.fst = .hunt1) := by simp [hfst]
  have hcollect : s.fst ≠ .collect := by simp [hfst]
  exact ⟨by omega, fun h => absurd h hhunt, fun h => absurd h hcollect,
    fun _ => ⟨hlen, hmark, hlen ▸ hfoot⟩⟩

/-- Storing a byte behind the marker leaves the marker. -/
theorem markerHeld_stored (b : Byte) (hlow : 2 ≤ s.rxlen.toNat) (hmark : MarkerHeld s) :
    MarkerHeld (stored b s) := by
  obtain ⟨h0, h1⟩ := hmark
  refine ⟨?_, ?_⟩
  · rw [read_stored_rxb, if_neg (by omega), h0]
  · rw [read_stored_rxb, if_neg (by omega), h1]

/-- A frame is judged when its count has just reached `E`, and not beyond (R153). -/
theorem rxlen_stored_of_complete (b : Byte) (hlow : s.rxlen.toNat ≤ 260)
    (hopen : 4 ≤ s.rxlen.toNat → s.rxlen.toNat < (s.rxb.read 3).toNat + 6)
    (hcomplete : ¬FrameOpen (stored b s)) :
    (stored b s).rxlen.toNat = ((stored b s).rxb.read 3).toNat + 6 := by
  have hcount := toNat_stored_rxlen b hlow
  have hread := read_stored_rxb b s 3
  obtain ⟨hfour, hlong⟩ := not_or.mp hcomplete
  rw [if_neg (by omega)] at hread
  rw [hread] at hlong ⊢
  have := hopen (by omega)
  omega

/-- A byte while collecting: the frame stays open, is held, or is dropped (R153, R154). -/
theorem inv_scanCollect (b : Byte) (h : Inv s) (hfst : s.fst = .collect) :
    Inv (scanCollect b s) := by
  have hesr := esrOk_of_inv h
  have ⟨⟨_, hrxb, _⟩, _, _, hcollect, _⟩ := h
  obtain ⟨hlow, hhigh, hmark, hopen⟩ := hcollect hfst
  have hstored : Memory.ok 261 (stored b s).rxb := Memory.ok_write b hrxb (by omega)
  have hmark' := markerHeld_stored b hlow hmark
  rw [scanCollect_eq, scanFooter_eq]
  split_ifs with hopen' hfoot
  · have hlow' : 2 ≤ (stored b s).rxlen.toNat := by rw [toNat_stored_rxlen b hhigh]; omega
    have hscan : ScannerOk (stored b s) := scannerOk_of_collect hfst hlow' hmark' hopen'
    exact inv_withScanner (s := s) h hstored hesr hscan
  · have hlen := rxlen_stored_of_complete b hhigh hopen hopen'
    have hscan : ScannerOk { stored b s with fst := .ready } :=
      scannerOk_of_ready rfl hlen hmark' hfoot
    exact inv_withScanner (s := s) h hstored hesr hscan
  · have hresync : (s.esr ||| 0x0400#16).extractLsb' 11 5 = 0#5 :=
      esrOk_esrWith (bit := resyncBit) hesr (by decide)
    exact inv_withScanner (s := s) h hstored hresync (scannerOk_of_hunt (.inl rfl) rfl)

/-- A byte into the scanner keeps the invariants (R150 to R155). -/
theorem inv_scanByte (b : Byte) (h : Inv s) : Inv (scanByte b s) := by
  have hesr := esrOk_of_inv h
  have ⟨⟨_, hrxb, _⟩, _, hhunt, _⟩ := h
  cases hfst : s.fst with
  | hunt0 =>
    have hlen := hhunt (.inl hfst)
    rw [scanByte_of_hunt0 hfst]
    split
    · exact inv_withScanner h hrxb hesr (scannerOk_of_hunt (.inr rfl) hlen)
    · exact h
  | hunt1 =>
    have hlen := hhunt (.inr hfst)
    have hmarked : Memory.ok 261 (withMarker s.rxb) := Memory.ok_writeBytes hrxb (by simp)
    rw [scanByte_of_hunt1 hfst, scanHunt1_eq]
    split_ifs
    · refine inv_withScanner h hmarked hesr (scannerOk_of_collect rfl ?_ ?_ ?_)
      · exact le_refl 2
      · exact ⟨read_withMarker s.rxb 0, read_withMarker s.rxb 1⟩
      · exact .inl (show (2 : Nat) < 4 by decide)
    · exact inv_withScanner h hrxb hesr (scannerOk_of_hunt (.inr rfl) hlen)
    · exact inv_withScanner h hrxb hesr (scannerOk_of_hunt (.inl rfl) hlen)
  | collect =>
    rw [scanByte_of_collect hfst]
    exact inv_scanCollect b h hfst
  | ready => exact (scanByte_of_ready hfst).symm ▸ h

end

/-! ### Resets -/

/-- SRST's reset keeps the invariants (R216). -/
theorem inv_softReset {s : State} (h : Inv s) : Inv (softReset s) := by
  obtain ⟨⟨hwb, hrxb, -, htel⟩, -⟩ := h
  have hscan : ScannerOk (softReset s) := scannerOk_of_hunt (.inl rfl) rfl
  obtain ⟨hlen, hhunt, hcollect, hready⟩ := hscan
  refine ⟨⟨hwb, hrxb, Memory.ok_nil 8, fun k => ?payload⟩, hlen, hhunt, hcollect, hready,
    Nat.zero_le 8, esrOk_zero, fun hchange => absurd hchange (by simp)⟩
  case payload => simpa using htel k

/-- The power-on reset has the invariants whatever came before (R255). -/
theorem inv_powerOn (wb : List Byte) (s : State) : Inv (powerOn wb s) := by
  have hwb : Memory.ok 256 (powerOn wb s).wb :=
    Memory.ok_writeBytes (Memory.ok_nil 256) (by simp [Config.wbSize])
  have hscan : ScannerOk (powerOn wb s) := scannerOk_of_hunt (.inl rfl) rfl
  obtain ⟨hlen, hhunt, hcollect, hready⟩ := hscan
  refine ⟨⟨hwb, Memory.ok_nil 261, Memory.ok_nil 8, fun k => ?payload⟩, hlen, hhunt, hcollect,
    hready, Nat.zero_le 8, esrOk_zero, fun hchange => absurd hchange (by simp)⟩
  case payload => simpa using Memory.ok_nil 8

/-! ### Every change, every step, every run -/

/-- Every change of an operation keeps the invariants. -/
theorem Effect.inv {s u : State} {i : Instr} (heffect : Effect s i u) (h : Inv s) : Inv u := by
  cases heffect with
  | unchanged | crc | sum | words | command => exact h
  | softReset => exact inv_softReset h
  | esr mask =>
    refine inv_withEsr h ?_
    rw [BitVec.extractLsb'_and, esrOk_of_inv h, BitVec.zero_and]
  | byte v hb ha => exact inv_setBuf h hb (Memory.ok_write v (ok_bufMem h hb) ha)
  | trailer c hb hn => exact inv_setBuf h hb (Memory.ok_writeBytes (ok_bufMem h hb) hn)
  | field d hb hn => exact inv_setBuf h hb (Memory.ok_bfSet d (ok_bufMem h hb) hn)
  | request addr kind1 kind2 c =>
    have hwb : Memory.ok 256 (withRequest s.wb addr kind1 kind2) :=
      Memory.ok_writeBytes (ok_bufMem (b := .wb) h (by decide)) (by simp)
    exact inv_setBuf (b := .wb) h (by decide) hwb
  | flush =>
    have ⟨⟨_, hrxb, _⟩, _⟩ := h
    exact inv_withScanner h hrxb (esrOk_of_inv h) (scannerOk_of_hunt (.inl rfl) rfl)
  | scan b => exact inv_scanByte b h
  | control en cur => exact inv_withFrame h (ok_controlFrame s en cur) (by decide)
  | frame id payload hdlc =>
    refine inv_withFrame h (ok_payloadBytes payload hdlc) ?_
    exact (BitVec.extractLsb'_toNat ..).trans_le ((Nat.mod_le _ _).trans hdlc)
  | record k => exact inv_latch k h
  | acknowledged => exact inv_acknowledged h

/-- Every operation keeps the invariants. -/
theorem inv_exec {i : Instr} {s t : State} (h : Inv s) (hexec : exec i s = .next t) : Inv t := by
  rcases exec_cases hexec with ⟨f, rfl⟩ | ⟨u, st, r, heffect, rfl⟩
  · exact inv_raised f h
  · exact heffect.inv h

/-- Every step keeps the invariants. -/
theorem inv_step {s t : State} (h : Inv s) (hstep : step s = .next t) : Inv t := by
  rcases step_cases hstep with ⟨-, rfl⟩ |
    ⟨x, rest, -, ⟨wb, -, rfl⟩ | ⟨w, i, -, -, hexec⟩ | ⟨w, e, -, -, rfl⟩⟩
  · exact h
  · exact inv_powerOn wb _
  · have hport : Inv { s with port := rest } := h
    exact inv_exec hport hexec
  · have hport : Inv { s with port := rest } := h
    exact inv_raised .illegalOp hport

/-- A run of one more step goes on from the state of its first. -/
theorem run_succ_of_step {M : Host.Core} {s u : M.State} (k : Nat) (h : M.step s = .next u) :
    M.run (k + 1) s = M.run k u := by
  rw [Host.Core.run, h]

/-- A run from a state with the invariants goes on through such states. -/
theorem safeRun_of_inv {s : State} (h : Inv s) : SafeRun s := by
  intro k
  induction k generalizing s with
  | zero => exact ⟨s, rfl, h⟩
  | succ k ih =>
    obtain ⟨u, hu⟩ := exists_step_eq_next s
    obtain ⟨t, ht, hinv⟩ := ih (inv_step h hu)
    exact ⟨t, (run_succ_of_step (M := Sys2Proof.core) k hu).trans ht, hinv⟩

/-! ### The obligations -/

/-- Settles O58, by what a step can be. -/
theorem stepKeepsTheInvariants : Obligations.StepKeepsTheInvariants := fun _ _ => inv_step

/-- Settles O59: the reset state is the power-on state of no bytes. -/
theorem resetHasTheInvariants : Obligations.ResetHasTheInvariants :=
  ⟨inv_powerOn [] State.reset, inv_powerOn⟩

/-- Settles O60, by induction on the number of steps. -/
theorem runsAreSafe : Obligations.RunsAreSafe := fun _ => safeRun_of_inv

/-- With marker and footer in place only the length, the command and the payload can fail (R161). -/
theorem frameError_of_framed {f : Nat → Byte} {len off : Nat} {e : EngFault}
    (hmark : f 0 = markA ∧ f 1 = markB) (hfoot : f (len - 2) = markA ∧ f (len - 1) = footB)
    (h : frameError f len off = some e) : e = .feLength ∨ e = .feCommand ∨ e = .fePayload := by
  obtain ⟨h0, h1⟩ := hmark
  obtain ⟨h2, h3⟩ := hfoot
  simp only [frameError, h0, h1, h2, h3, ne_eq, not_true_eq_false, or_self, if_false] at h
  split_ifs at h <;> cases h <;> simp

/-- Settles O35: the invariants give the held frame its marker and its footer. -/
theorem heldFrameIsWellFramed : Obligations.HeldFrameIsWellFramed := by
  intro s t a n f r hinv hexec hrsp
  by_cases hready : s.fst = .ready
  · have hfdec : exec (.fdec (.named .rxb) a n) s = decodeFrame s.rxb.read s.rxlen.toNat s :=
      if_pos hready
    obtain ⟨-, -, -, -, hheld, -⟩ := hinv
    obtain ⟨-, hmark, hfoot⟩ := hheld hready
    rcases decodeFrame_cases s.rxb.read s.rxlen.toNat s with ⟨e, herror, hdec⟩ | ⟨-, hdec⟩
    · obtain rfl := Host.Outcome.next.inj (hdec.symm.trans (hfdec.symm.trans hexec))
      obtain ⟨rfl, -⟩ : e = f ∧ _ := by simpa using hrsp
      exact frameError_of_framed hmark hfoot herror
    · obtain rfl := Host.Outcome.next.inj (hdec.symm.trans (hfdec.symm.trans hexec))
      simp at hrsp
  · obtain rfl := Host.Outcome.next.inj ((exec_fdec_empty a n hready).symm.trans hexec)
    simp at hrsp

end Sys2Proof.Machine
end

section
/-! Frames through the scanner (R149 to R157): feeding as a fold, what the scanner holds after a
part of a frame and after the whole of it, then the two obligations. -/

namespace Sys2Proof.Machine

/-! ### Feeding -/

/-- The state after one FPUSH (R150). -/
def pushed (s : State) (b : Byte) : State :=
  (scanByte b s).answer (if s.fst = .ready then .busy else .ok)
    (((scanByte b s).fst.code).setWidth 64)

/-- FPUSH in full. -/
theorem exec_fpush (s : State) (b : Byte) : exec (.fpush b) s = .next (pushed s b) := rfl

/-- A push is what FPUSH answers. -/
theorem pushed_of_exec {s t : State} {b : Byte} (h : exec (.fpush b) s = .next t) :
    pushed s b = t :=
  Host.Outcome.next.inj ((exec_fpush s b).symm.trans h)

/-- Feeding never fails: it is one push a byte (R85). -/
theorem feed_eq_foldl (bs : List Byte) (s : State) : feed bs s = some (bs.foldl pushed s) := by
  induction bs generalizing s with
  | nil => rfl
  | cons b bs ih =>
    rw [feed, exec_fpush]
    exact ih (pushed s b)

/-! ### What the scanner holds -/

/-- A byte sequence stands at the start of a buffer. -/
def StartsWith (m : Memory) (p : List Byte) : Prop := ∀ j, j < p.length → p[j]? = some (m.read j)

/-- From `s` the scanner has come to collect a frame of which `p` is stored. -/
def Collecting (s : State) (p : List Byte) (u : State) : Prop :=
  ∃ n m r, u = { s with fst := .collect, rxlen := n, rxb := m, rsp := r } ∧
    n.toNat = p.length ∧ StartsWith m p

/-- From `s` the scanner has come to hold the frame `f`, and nothing else has changed (R154). -/
def Holding (s : State) (f : List Byte) (u : State) : Prop :=
  ∃ n m r, u = { s with fst := .ready, rxlen := n, rxb := m, rsp := r } ∧
    n.toNat = f.length ∧ StartsWith m f

/-- From `s` the scanner has dropped a frame with nothing but `E_RESYNC` (R154). -/
def Dropped (s u : State) : Prop :=
  ∃ m r, u = { s with fst := .hunt0, rxlen := 0#9, rxb := m, esr := s.esr ||| 0x0400#16, rsp := r }

/-- A scanner that has dropped a frame is flushed. -/
theorem Dropped.flushed {s u : State} (h : Dropped s u) : u.fst = .hunt0 ∧ u.rxlen = 0#9 := by
  obtain ⟨m, r, rfl⟩ := h
  exact ⟨rfl, rfl⟩

/-- A scanner that holds a frame has all of it in RXB. -/
theorem Holding.held {s u : State} {f : List Byte} (h : Holding s f u) :
    u.fst = .ready ∧ u.rxlen.toNat = f.length ∧ StartsWith u.rxb f := by
  obtain ⟨n, m, r, rfl, hn, hm⟩ := h
  exact ⟨rfl, hn, hm⟩

/-- What a dropped frame and a held one behind it change together. -/
theorem Holding.eq_of_dropped {s u v : State} {f : List Byte} (h : Holding u f v)
    (hdropped : Dropped s u) :
    v = { s with fst := .ready, rxlen := v.rxlen, rxb := v.rxb, esr := s.esr ||| 0x0400#16
                 rsp := v.rsp } := by
  obtain ⟨m, r, rfl⟩ := hdropped
  obtain ⟨n, m', r', rfl, -⟩ := h
  rfl

/-- A known byte of the sequence is the one read at its place. -/
theorem StartsWith.read_eq {m : Memory} {p : List Byte} {j : Nat} {v : Byte}
    (h : StartsWith m p) (hv : p[j]? = some v) : m.read j = v := by
  obtain ⟨hj, -⟩ := List.getElem?_eq_some_iff.mp hv
  exact Option.some.inj ((h j hj).symm.trans hv)

/-- Reading a byte inside the sequence is knowing it. -/
theorem StartsWith.getElem?_iff {m : Memory} {p : List Byte} {j : Nat} (v : Byte)
    (h : StartsWith m p) (hj : j < p.length) : p[j]? = some v ↔ m.read j = v := by
  rw [h j hj, Option.some.injEq]

/-- Writing a byte behind the sequence makes it longer. -/
theorem StartsWith.write {m : Memory} {p : List Byte} (b : Byte) (h : StartsWith m p) :
    StartsWith (m.write p.length b) (p ++ [b]) := by
  intro j hj
  rw [List.length_append, List.length_singleton] at hj
  rw [Memory.read_write]
  by_cases hlast : j = p.length
  · simp [hlast]
  · rw [if_neg hlast, List.getElem?_append_left (by omega)]
    exact h j (by omega)

/-- The length byte of a frame, once it is stored (R153). -/
theorem StartsWith.read_three {m : Memory} {p q : List Byte} {e : Byte} (h : StartsWith m p)
    (hp : 4 ≤ p.length) (he : (p ++ q)[3]? = some e) : m.read 3 = e :=
  h.read_eq (List.getElem?_append_left (l₂ := q) (show 3 < p.length by omega) ▸ he)

/-! ### One frame from its first byte to its last -/

section
variable {s u : State} {p q f : List Byte}

/-- The marker opens a frame (R151, R152). -/
theorem collecting_marker (h : s.fst = .hunt0) :
    Collecting s [markA, markB] ([markA, markB].foldl pushed s) := by
  have hA : pushed s markA = ({ s with fst := .hunt1 } : State).answer .ok 1#64 :=
    (pushed_of_exec (exec_fpush_of_hunt0 markA h)).trans (if_pos rfl)
  rw [List.foldl_cons, List.foldl_cons, List.foldl_nil, hA,
    pushed_of_exec (exec_fpush_of_hunt1 markB rfl), if_pos rfl]
  refine ⟨_, _, _, rfl, rfl, fun j hj => ?_⟩
  rw [read_withMarker]
  match j, hj with
  | 0, _ => rfl
  | 1, _ => rfl

/-- Storing a byte makes the stored part longer (R153). -/
theorem Collecting.store (b : Byte) (h : Collecting s p u) (hp : p.length ≤ 260) :
    Collecting s (p ++ [b]) (stored b u) := by
  obtain ⟨n, m, r, rfl, hn, hm⟩ := h
  refine ⟨_, _, r, rfl, ?_, hn ▸ hm.write b⟩
  rw [List.length_append, List.length_singleton, ← hn]
  exact toNat_stored_rxlen b (hn.trans_le hp)

/-- A part of a frame is open (R153). -/
theorem Collecting.frameOpen (h : Collecting s p u) (hf : Counted (p ++ q)) (hq : q ≠ []) :
    FrameOpen u := by
  obtain ⟨n, m, r, rfl, hn, hm⟩ := h
  obtain ⟨-, -, e, he, hlen⟩ := hf
  have hpos := List.length_pos_iff.mpr hq
  rw [List.length_append] at hlen
  by_cases hfour : p.length < 4
  · exact .inl (hn.trans_lt hfour)
  · have hread := hm.read_three (not_lt.mp hfour) he
    refine .inr ?_
    simp only [hn, hread]
    omega

/-- A whole frame is not open (R153). -/
theorem Collecting.not_frameOpen (h : Collecting s f u) (hf : Counted f) : ¬FrameOpen u := by
  obtain ⟨n, m, r, rfl, hn, hm⟩ := h
  obtain ⟨-, -, e, he, hlen⟩ := hf
  simp only [FrameOpen, hn, hm.read_eq he]
  omega

/-- The scanner's footer test on a whole frame is the frame's own (R154). -/
theorem Collecting.footerHeld_iff (h : Collecting s f u) (hf : Counted f) :
    FooterHeld u ↔ FooterGood f := by
  obtain ⟨n, m, r, rfl, hn, hm⟩ := h
  obtain ⟨-, -, e, he, hlen⟩ := hf
  have hA : f.length - 2 = e.toNat + 4 := by omega
  have hB : f.length - 1 = e.toNat + 5 := by omega
  rw [FooterGood, hA, hB, hm.getElem?_iff _ (by omega), hm.getElem?_iff _ (by omega)]
  simp only [FooterHeld, hm.read_eq he]
  rfl

/-- A push while collecting (R153, R154). -/
theorem Collecting.pushed_eq (b : Byte) (h : Collecting s p u) :
    pushed u b =
      if FrameOpen (stored b u) then (stored b u).answer .ok 2#64
      else if FooterHeld (stored b u) then
        ({ stored b u with fst := .ready } : State).answer .ok 3#64
      else
        ({ stored b u with rxlen := 0#9, fst := .hunt0,
                           esr := u.esr ||| 0x0400#16 } : State).answer .ok 0#64 := by
  obtain ⟨n, m, r, rfl, -, -⟩ := h
  exact pushed_of_exec (exec_fpush_of_collect b rfl)

/-- A proper part of a frame leaves room for one more byte in RXB (R27, R158). -/
theorem Counted.length_le (hf : Counted (p ++ q)) (hq : q ≠ []) : p.length ≤ 260 := by
  obtain ⟨-, -, e, -, hlen⟩ := hf
  have hpos := List.length_pos_iff.mpr hq
  have hbyte : e.toNat < 256 := e.isLt
  rw [List.length_append] at hlen
  omega

/-- A push before the last byte of a frame (R153). -/
theorem Collecting.push (b : Byte) (h : Collecting s p u) (hf : Counted (p ++ [b] ++ q))
    (hq : q ≠ []) : Collecting s (p ++ [b]) (pushed u b) := by
  have hstored := h.store b (Counted.length_le (q := b :: q) (by simpa using hf) (by simp))
  rw [h.pushed_eq, if_pos (hstored.frameOpen hf hq)]
  obtain ⟨n, m, r, heq, hrest⟩ := hstored
  exact ⟨n, m, _, by rw [heq]; rfl, hrest⟩

/-- The last byte of a frame with a good footer (R154). -/
theorem Collecting.push_last_good (b : Byte) (h : Collecting s p u) (hf : Counted (p ++ [b]))
    (hgood : FooterGood (p ++ [b])) : Holding s (p ++ [b]) (pushed u b) := by
  have hstored := h.store b (hf.length_le (by simp))
  rw [h.pushed_eq, if_neg (hstored.not_frameOpen hf),
    if_pos ((hstored.footerHeld_iff hf).mpr hgood)]
  obtain ⟨n, m, r, heq, hrest⟩ := hstored
  exact ⟨n, m, _, by rw [heq]; rfl, hrest⟩

/-- The last byte of a frame with a wrong footer (R154). -/
theorem Collecting.push_last_wrong (b : Byte) (h : Collecting s p u) (hf : Counted (p ++ [b]))
    (hwrong : ¬FooterGood (p ++ [b])) : Dropped s (pushed u b) := by
  have hstored := h.store b (hf.length_le (by simp))
  rw [h.pushed_eq, if_neg (hstored.not_frameOpen hf),
    if_neg (mt (hstored.footerHeld_iff hf).mp hwrong)]
  obtain ⟨n, m, r, rfl, -⟩ := h
  exact ⟨_, _, rfl⟩

/-- The rest of a frame, from any part of it on: all but its last byte leave the frame open. -/
theorem Collecting.foldl_init (h : Collecting s p u) (b : Byte) (hf : Counted (p ++ q ++ [b])) :
    Collecting s (p ++ q) (q.foldl pushed u) := by
  induction q generalizing p u with
  | nil => simpa using h
  | cons c q ih =>
    have hf' : Counted (p ++ [c] ++ q ++ [b]) := by simpa using hf
    have hc : Collecting s (p ++ [c]) (pushed u c) :=
      h.push c (q := q ++ [b]) (by simpa using hf') (by simp)
    simpa using ih hc hf'

end

/-- A frame is its marker, the bytes between, and its last byte. -/
theorem Counted.exists_split {f : List Byte} (h : Counted f) :
    ∃ q b, f = [markA, markB] ++ q ++ [b] := by
  obtain ⟨h0, h1, e, -, hlen⟩ := h
  match f, h0, h1, hlen with
  | a :: b :: rest, h0, h1, hlen =>
    obtain rfl : a = markA := Option.some.inj h0
    obtain rfl : b = markB := Option.some.inj h1
    have hrest : rest ≠ [] := by
      rintro rfl
      simp at hlen
    exact ⟨rest.dropLast, rest.getLast hrest, by simp [List.dropLast_concat_getLast]⟩

section
variable {s : State} {f : List Byte}

/-- A frame but for its last byte, fed to a scanner that hunts, is collected. -/
theorem collecting_init {q : List Byte} {b : Byte} (hfst : s.fst = .hunt0)
    (hf : Counted ([markA, markB] ++ q ++ [b])) :
    Collecting s ([markA, markB] ++ q) (([markA, markB] ++ q).foldl pushed s) := by
  rw [List.foldl_append]
  exact (collecting_marker hfst).foldl_init b hf

/-- A frame with a good footer, fed to a scanner that hunts, is held. -/
theorem holding_of_counted (hfst : s.fst = .hunt0) (hf : Counted f) (hgood : FooterGood f) :
    Holding s f (f.foldl pushed s) := by
  obtain ⟨q, b, rfl⟩ := hf.exists_split
  rw [List.foldl_append]
  exact (collecting_init hfst hf).push_last_good b hf hgood

/-- A frame with a wrong footer, fed to a scanner that hunts, is dropped. -/
theorem dropped_of_counted (hfst : s.fst = .hunt0) (hf : Counted f) (hwrong : ¬FooterGood f) :
    Dropped s (f.foldl pushed s) := by
  obtain ⟨q, b, rfl⟩ := hf.exists_split
  rw [List.foldl_append]
  exact (collecting_init hfst hf).push_last_wrong b hf hwrong

end

/-! ### A request through the scanner -/

/-- The first eleven bytes of WB after FREQ are the request (R148). -/
theorem rangeOf_withRequest (m : Memory) (addr kind1 kind2 : Byte) :
    rangeOf (withRequest m addr kind1 kind2) 0 11 = requestFrame addr kind1 kind2 := by
  simpa [rangeOf_eq_bytes, withRequest] using
    m.bytes_writeBytes_middle 0 [] (requestFrame addr kind1 kind2) []

/-- A request is a frame of eleven bytes to the scanner (R149). -/
theorem counted_requestFrame (addr kind1 kind2 : Byte) :
    Counted (requestFrame addr kind1 kind2) :=
  ⟨rfl, rfl, 0x05#8, rfl, rfl⟩

/-- A request closes with the footer (R147). -/
theorem footerGood_requestFrame (addr kind1 kind2 : Byte) :
    FooterGood (requestFrame addr kind1 kind2) :=
  ⟨rfl, rfl⟩

/-- A held request is no response: its byte 4 is 0x01 (R147, R161). -/
theorem exec_fdec_of_request {s u : State} {addr kind1 kind2 : Byte} (a : BitVec 32)
    (n : BitVec 16) (h : Holding s (requestFrame addr kind1 kind2) u) :
    exec (.fdec (.named .rxb) a n) u = .next (u.raised .feCommand) := by
  obtain ⟨hfst, hlen, hbytes⟩ := h.held
  have hfdec : exec (.fdec (.named .rxb) a n) u = decodeFrame u.rxb.read u.rxlen.toNat u :=
    if_pos hfst
  have hread (j : Nat) (v : Byte) (hv : (requestFrame addr kind1 kind2)[j]? = some v) :
      u.rxb.read j = v := hbytes.read_eq hv
  rw [length_requestFrame] at hlen
  rw [hfdec, decodeFrame_eq, hlen, hread 0 markA rfl, hread 1 markB rfl, hread (11 - 2) markA rfl,
    hread (11 - 1) footB rfl, hread 4 0x01#8 rfl]
  simp

/-- The checksum of a request in WB is right (R147, R149). -/
theorem checksum_withRequest (m : Memory) (addr kind1 kind2 : Byte) :
    (((withRequest m addr kind1 kind2).read 2).toNat +
      ((withRequest m addr kind1 kind2).read 3).toNat +
      ((withRequest m addr kind1 kind2).read 4).toNat +
      ((withRequest m addr kind1 kind2).read 5).toNat +
      ((withRequest m addr kind1 kind2).read 6).toNat +
      ((withRequest m addr kind1 kind2).read 7).toNat) % 256 =
    ((withRequest m addr kind1 kind2).read 8).toNat := by
  simp only [read_withRequest]
  exact (toNat_sum8_requestBody addr kind1 kind2).symm

/-! ### The obligations -/

/-- Settles O32: the first frame is dropped, and the second is held from the state it leaves. -/
theorem resyncKeepsTheNextFrame : Obligations.ResyncKeepsTheNextFrame := by
  intro s f1 f2 hfst _ hf1 hwrong hf2 hgood
  have hdropped := dropped_of_counted hfst hf1 hwrong
  obtain ⟨hhunt, hempty⟩ := hdropped.flushed
  have hholding := holding_of_counted hhunt hf2 hgood
  obtain ⟨-, hlen, hbytes⟩ := hholding.held
  refine ⟨f1.foldl pushed s, f2.foldl pushed (f1.foldl pushed s), feed_eq_foldl f1 s, hhunt,
    hempty, ?both, hholding.eq_of_dropped hdropped, hlen, fun j v => hbytes.read_eq⟩
  case both => rw [feed_eq_foldl, List.foldl_append]

/-- Settles O33: FREQ leaves the request in WB, the scanner holds it, FDEC refuses it. -/
theorem requestPassesTheScannerOnly : Obligations.RequestPassesTheScannerOnly := by
  intro s addr kind1 kind2 a n hfst _
  obtain ⟨t, hfreq, hwb, hhunt⟩ : ∃ t, exec (.freq addr kind1 kind2) s = .next t ∧
      t.wb = withRequest s.wb addr kind1 kind2 ∧ t.fst = s.fst := by
    rw [exec_freq]
    generalize withRequest s.wb addr kind1 kind2 = m
    exact ⟨_, rfl, rfl, rfl⟩
  have hholding := holding_of_counted (hhunt.trans hfst) (counted_requestFrame addr kind1 kind2)
    (footerGood_requestFrame addr kind1 kind2)
  obtain ⟨hready, hlen, -⟩ := hholding.held
  refine ⟨t, (requestFrame addr kind1 kind2).foldl pushed t, hfreq, ?checksum, ?length, ?fed,
    hready, hlen, exec_fdec_of_request a n hholding⟩
  case checksum => exact hwb ▸ checksum_withRequest ..
  case length =>
    rw [hwb, read_withRequest]
    rfl
  case fed => rw [hwb, rangeOf_withRequest, feed_eq_foldl]

end Sys2Proof.Machine
end

section
/-! The step (R20, R79, R244, R255): what it does with a power-on input, with nothing and with a
presented word, then the three obligations. -/

namespace Sys2Proof.Machine

/-- A power-on input resets (R255). -/
theorem step_of_powerOn {s : State} {wb : List Byte} {rest : List Input}
    (hport : s.port = .powerOn wb :: rest) :
    step s = .next (powerOn wb { s with port := rest }) := by
  simp [step, nextInput, hport]

/-- With nothing presented the engine holds its state (R244). -/
theorem step_of_port_nil {s : State} (hport : s.port = []) : step s = .next s := by
  simp [step, nextInput, hport]

/-- After a power-on input with 256 bytes WB holds exactly those (U1). -/
theorem read_powerOn_wb (s : State) {bytes : List Byte} (hlen : bytes.length = 256) {j : Nat}
    {v : Byte} (hv : bytes[j]? = some v) : (powerOn bytes s).wb.read j = v := by
  have htake : bytes.take Config.wbSize = bytes := List.take_of_length_le hlen.le
  rw [powerOn_wb, htake, Memory.read_writeBytes, if_pos (Nat.zero_le j), Nat.sub_zero, hv,
    Option.getD_some]

/-- The word that `withFetchWord` presents is the word given (log entry 1). -/
theorem withFetchWord_toNat_port (s : State) (w : CmdWord) :
    (s.withFetchWord 128 w.toNat).port = .command w :: s.port := by
  rw [State.withFetchWord_port, Nat.mod_eq_of_lt w.isLt, BitVec.ofNat_toNat, BitVec.setWidth_eq]

/-! ### The obligations -/

/-- Settles O2: the state after is `powerOn` of the bytes. -/
theorem powerOnTakesAnyWorkBuffer : Obligations.PowerOnTakesAnyWorkBuffer :=
  fun _ bytes _ hlen hport => ⟨_, step_of_powerOn hport, atResetValues_powerOn bytes _, rfl, rfl,
    fun _ _ => read_powerOn_wb _ hlen⟩

/-- Settles O54, by what the port presents. -/
theorem stepRunsTheDecodedOperation : Obligations.StepRunsTheDecodedOperation := fun s w _ =>
  ⟨fun hport => ⟨fun _ => step_of_decode_ok hport, fun _ => step_of_decode_error hport⟩,
    step_of_port_nil, fun _ => step_of_decode_ok (withFetchWord_toNat_port s w)⟩

/-- Settles O57: closed evaluation of the decoder on five words. -/
theorem decodeKnownWords : Obligations.DecodeKnownWords := ⟨rfl, rfl, rfl, rfl, rfl⟩

end Sys2Proof.Machine
end
